-- ==== Sys2Proof/Word.lean ====
section
/-!
DEFINITION. The word type of PWT: the type of NOW, S[n], W[n] and c_rdata, with the spec's named width parameter TSW as its
argument. Addition and subtraction modulo 2^TSW (00_scope.md section 5, "+_TSW", "−_TSW") are those of BitVec.
-/

namespace Sys2Proof

/-- A TSW-bit unsigned value, counted in microseconds (R7, R8, R16). TSW, "the width in bits of the timebase", of every start
register, of every width register and of the read-data port, "is a named parameter of the model with default 32" (R6, R7, U9;
decisions D1, D2): Word without its argument is the default. Entry 2. -/
abbrev Word (TSW : Nat := 32) := BitVec TSW

theorem word_default : Word = BitVec 32 := rfl

end Sys2Proof
end

