-- ==== Sys2Proof/Config.lean ====
section
/-!
DEFINITION. The named parameters of PWT (00_scope.md R5 to R11, R19) and the open ones, which are constants with no body
(92_eei_decisions.md "Open parameters"): nothing can be proved of their values. TSW is the argument of Word (Word.lean) and NCH
that of Channel (Syntax.lean). The parameters of the reference consumer
(43_consumer_environment.md) stand here too.
-/

namespace Sys2Proof

namespace Config

/-- S_NONE, the value of S[n] that means no rising edge is pending (R9). -/
def sNone {TSW : Nat} : Word TSW := 0

/-- W_RESET, the value of every W[n] after reset, "neutral" (R10). -/
def wReset {TSW : Nat} : Word TSW := 1500

/-- NOW_RESET at the default width, the value of NOW in the launch state: "an open parameter ranging over all TSW-bit values" (R11, D5, U1).
It has no body, so every claim about a run from reset holds whatever it is. Entry 1. -/
opaque nowReset : Word

end Config

/-! ### Parameters of the reference consumer (not of PWT) -/

/-- DUTY_MAX, the top of the duty-cycle range (R97, R101). -/
abbrev Config.dutyMax : Nat := 255

/-- A duty-cycle value, "output range is [0,255] duty-cycle units" (R101): 0 to DUTY_MAX. -/
abbrev Duty := Fin (Config.dutyMax + 1)

/-- ROUND_MODE of the dimmer map: the candidates that 95_test_vectors.md EV1 tabulates (R97, D28). -/
inductive RoundMode where
  | truncate
  | nearestHalfUp
  | nearestHalfEven
  deriving DecidableEq, Repr, Inhabited

namespace Config

/-- SW_THRESH (R96). -/
def swThresh : Int := 1600

/-- DIM_LO (R97). -/
def dimLo : Int := 1000

/-- DIM_HI (R97). -/
def dimHi : Int := 2000

/-- TRIG_THRESH (R98). -/
def trigThresh : Int := 1700

/-- NCOL, the number of colours (R98). -/
abbrev ncol : Nat := 6

/-- ROUND_MODE as the implementation fixes it: open (D28, U19). Entry 11. -/
opaque roundMode : RoundMode

/-- POLL_DELAY_MS, the pause between two polling cycles: about 50 ms, "no rule depending on the number" (R103, D26). -/
def pollDelayMs : Nat := 50

/-- Whether the consumer drives its outputs before it clears the flag, as the source's section 8 has it, or after, as its
section 4.2 has it: "Both are admissible" (R95, C6, U18). Entry 11. -/
opaque actBeforeClear : Bool

/-- LED_ON, the duty value that ON denotes: open (R96, D28, U20). Entry 11. -/
opaque ledOn : Duty

/-- The value of LED1 before the first sample: not given (R106, D28). Entry 11. -/
opaque led1Reset : Duty

/-- The value of LED2 before the first sample: not given (R106, D28). Entry 11. -/
opaque led2Reset : Duty

/-- The values of R, G, B before the first trigger: not given (R106, D28). Entry 11. -/
opaque rgbReset : Duty × Duty × Duty

end Config

end Sys2Proof
end

