-- ==== Sys2Proof/Syntax.lean ====
section
/-!
DEFINITION. The syntax of PWT: channels, the seven operations of spec/opcode_table.json (30_encoding.md R59, R62), the
agents that perform them (00_scope.md R13) and the access domains named by an operation word (R70).
-/

namespace Sys2Proof

/-- A channel of the NCH there are, held by its index, "with channel n at index n − 1" (R21). NCH, "the number of channels", is a
named parameter with default 3 (R5, R19, D26, U23): Channel without its argument is the default, "an integer in {1, 2, 3}"
(R17). Entry 13. -/
@[ext] structure Channel (NCH : Nat := 3) where
  idx : Fin NCH
  deriving DecidableEq, Repr

namespace Channel

variable {NCH : Nat}

/-- The channel number as the source writes it (R5, R61). -/
def number (n : Channel NCH) : Nat := n.idx.val + 1

/-- The channel of a number in 1..NCH, and none of another (R17). -/
def ofNumber (k : Nat) : Option (Channel NCH) :=
  if h : 1 ≤ k ∧ k ≤ NCH then some { idx := ⟨k - 1, by omega⟩ } else none

/-- Channel 1 of the default three. -/
def one : Channel := { idx := 0 }

/-- Channel 2 of the default three. -/
def two : Channel := { idx := 1 }

/-- Channel 3 of the default three. -/
def three : Channel := { idx := 2 }

/-- Every channel, in the ascending order in which POLL visits them (R88, D21). -/
def all (NCH : Nat := 3) : List (Channel NCH) := (List.finRange NCH).map fun i => { idx := i }

end Channel

/-- The operations of PWT, one constructor per row of the opcode table (R59, R62), for each number of
channels. -/
inductive Instr (NCH : Nat := 3) where
  | rise (n : Channel NCH)
  | fall (n : Channel NCH)
  | rdf (n : Channel NCH)
  | rdw (n : Channel NCH)
  | clr (n : Channel NCH)
  | tick
  | rst
  deriving DecidableEq, Repr

/-- The channel an operation names; TICK and RST have none (R61). -/
def Instr.channel {NCH : Nat} : Instr NCH → Option (Channel NCH)
  | .rise n => some n
  | .fall n => some n
  | .rdf n => some n
  | .rdw n => some n
  | .clr n => some n
  | .tick => none
  | .rst => none

/-- The agents of PWT (R13, R123). -/
inductive Agent (NCH : Nat := 3) where
  | edge (n : Channel NCH)
  | consumer
  | timebase
  | host
  deriving DecidableEq, Repr

/-- The agent that performs an operation: the "agent" column of R62. -/
def Instr.agent {NCH : Nat} : Instr NCH → Agent NCH
  | .rise n => .edge n
  | .fall n => .edge n
  | .rdf _ => .consumer
  | .rdw _ => .consumer
  | .clr _ => .consumer
  | .tick => .timebase
  | .rst => .host

/-- The domains that op[7:6] names (R70). -/
inductive Domain where
  | producer
  | consumer
  | timebase
  | host
  deriving DecidableEq, Repr

/-- The domain an agent belongs to (R70, R117). -/
def Agent.domain {NCH : Nat} : Agent NCH → Domain
  | .edge _ => .producer
  | .consumer => .consumer
  | .timebase => .timebase
  | .host => .host

end Sys2Proof
end

