-- ==== Sys2Proof/WellFormed.lean ====
section
/-!
DEFINITION. Which operation words and which operations are well-formed. A word is well-formed when a row of the opcode
table selects it (30_encoding.md R62, R63); the three checks a word must pass are also given one by one (R65, R66, R67).
An operation is well-formed when its channel number lies in 1..NCH (R17, R61), which every term of Instr meets, since a
channel outside that range cannot be written.
-/

namespace Sys2Proof

/-- Field op[7:4] of an operation word (R60). -/
def fieldOp (w : BitVec 8) : BitVec 4 := w.extractLsb' 4 4

/-- Field z[3:2] of an operation word (R60). -/
def fieldZ (w : BitVec 8) : BitVec 2 := w.extractLsb' 2 2

/-- Field n[1:0] of an operation word (R60). -/
def fieldN (w : BitVec 8) : BitVec 2 := w.extractLsb' 0 2

/-- The two high bits of a word, which name its domain (R70). -/
def wordDomain (w : BitVec 8) : Domain :=
  match (w.extractLsb' 6 2).toNat with
  | 0 => .producer
  | 1 => .consumer
  | 2 => .timebase
  | _ => .host

/-- A row of the opcode table: mask, match and whether the constraint "n ≠ 0" applies (R62). -/
structure Row where
  mnemonic : String
  maskBits : BitVec 8
  matchBits : BitVec 8
  needsChannel : Bool
  deriving DecidableEq, Repr

/-- "a word w selects a row if (w AND mask) = match and the row's constraint holds" (R63). -/
def Row.selects (r : Row) (w : BitVec 8) : Bool :=
  (w &&& r.maskBits == r.matchBits) && (!r.needsChannel || fieldN w != 0)

/-- The complete opcode table (R62). -/
def opcodeTable : List Row :=
  [ ⟨"RISE", 0xFC, 0x10, true⟩,
    ⟨"FALL", 0xFC, 0x20, true⟩,
    ⟨"RDF", 0xFC, 0x40, true⟩,
    ⟨"RDW", 0xFC, 0x50, true⟩,
    ⟨"CLR", 0xFC, 0x60, true⟩,
    ⟨"TICK", 0xFF, 0x80, false⟩,
    ⟨"RST", 0xFF, 0xF0, false⟩ ]

/-- "A word is a valid operation if and only if it is one of the 17 words" of the table (R62). -/
def wordValid (w : BitVec 8) : Bool := opcodeTable.any fun r => r.selects w

/-- Check 1: the opcode is not one of the reserved ones (R65). -/
def opcodeAssigned (w : BitVec 8) : Bool :=
  [0x1, 0x2, 0x4, 0x5, 0x6, 0x8, 0xF].contains (fieldOp w)

/-- Check 2: field z is 00 (R66). -/
def zClear (w : BitVec 8) : Bool := fieldZ w == 0

/-- Check 3: a channel operation names a channel, TICK and RST name none (R61, R67). -/
def channelFits (w : BitVec 8) : Bool :=
  if fieldOp w = 0x8 ∨ fieldOp w = 0xF then fieldN w == 0 else fieldN w != 0

/-- The channel number of an operation, where it has one, lies in 1..NCH (R17, R61). -/
def Instr.wf {NCH : Nat} (i : Instr NCH) : Bool :=
  match i.channel with
  | some n => decide (1 ≤ n.number ∧ n.number ≤ NCH)
  | none => true

end Sys2Proof
end

