-- ==== Sys2Proof/Decode.lean ====
section
/-!
DEFINITION. The decoder of operation words, total on all 256 words and rejecting by name (30_encoding.md R64 to R68), and
after it the encoder, written from the table of R62, and both for traces, "the sequence of its operation words, one byte
each, in order" (R71).
-/

namespace Sys2Proof

/-- Why a word spells no operation. -/
inductive Invalid where
  /-- Field z is not 00 (R66). -/
  | zNotZero
  /-- The opcode is reserved (R65). -/
  | reservedOpcode
  /-- A channel operation with n = 00 (R67), or with n above NCH where there are fewer than three channels. -/
  | noChannel
  /-- TICK or RST with n ≠ 00 (R67). -/
  | strayChannel
  deriving DecidableEq, Repr

/-- What a word decodes to. -/
inductive Decoded (NCH : Nat := 3) where
  | op (i : Instr NCH)
  | invalid (why : Invalid)
  deriving DecidableEq, Repr

/-- "01 is channel 1, 10 channel 2, 11 channel 3"; 00 is "no channel" (R61). "With NCH = 3 every non-zero value of the 2-bit
field names an existing channel" (R67). -/
def Channel.ofField {NCH : Nat} (n : BitVec 2) : Option (Channel NCH) := Channel.ofNumber n.toNat

/-- A channel operation, whose n must be 1, 2 or 3 (R61). -/
def decodeChannelOp {NCH : Nat} (mk : Channel NCH → Instr NCH) (n : BitVec 2) : Decoded NCH :=
  match Channel.ofField n with
  | some c => .op (mk c)
  | none => .invalid .noChannel

/-- An operation without a channel, whose n must be 00 (R61). -/
def decodePlainOp {NCH : Nat} (i : Instr NCH) (n : BitVec 2) : Decoded NCH :=
  if n = 0 then .op i else .invalid .strayChannel

/-- The decoding algorithm of R64, with the reason where a word is invalid. -/
def decode (w : BitVec 8) (NCH : Nat := 3) : Decoded NCH :=
  if fieldZ w ≠ 0 then .invalid .zNotZero
  else if fieldOp w = 0x1 then decodeChannelOp .rise (fieldN w)
  else if fieldOp w = 0x2 then decodeChannelOp .fall (fieldN w)
  else if fieldOp w = 0x4 then decodeChannelOp .rdf (fieldN w)
  else if fieldOp w = 0x5 then decodeChannelOp .rdw (fieldN w)
  else if fieldOp w = 0x6 then decodeChannelOp .clr (fieldN w)
  else if fieldOp w = 0x8 then decodePlainOp .tick (fieldN w)
  else if fieldOp w = 0xF then decodePlainOp .rst (fieldN w)
  else .invalid .reservedOpcode

/-- The operations a sequence of words spells, or nothing if one of them spells none: a sequence with an invalid word "is
not a trace of PWT" (R68, R71, U2). -/
def decodeTrace : List (BitVec 8) → Option (List Instr)
  | [] => some []
  | w :: ws =>
    match decode w, decodeTrace ws with
    | .op i, some is => some (i :: is)
    | _, _ => none

/-- The decoder on an instruction numbered as spec/opcode_table.json numbers it: one word of 8 bits, the only length
there is (R59). -/
def decodeTableWord (nbits w : Nat) : Option Instr :=
  if nbits = 8 ∧ w < 256 then
    match decode (BitVec.ofNat 8 w) with
    | .op i => some i
    | .invalid _ => none
  else none

/-- Field op of an operation (R62). -/
def Instr.opcode {NCH : Nat} : Instr NCH → BitVec 4
  | .rise _ => 0x1
  | .fall _ => 0x2
  | .rdf _ => 0x4
  | .rdw _ => 0x5
  | .clr _ => 0x6
  | .tick => 0x8
  | .rst => 0xF

/-- Field n for a channel: its number, "not scaled, shifted, sign-extended or offset" (R61). -/
def Channel.field {NCH : Nat} (n : Channel NCH) : BitVec 2 := BitVec.ofNat 2 n.number

/-- Field n of an operation: the channel, or 00 for none (R61). -/
def Instr.nField {NCH : Nat} (i : Instr NCH) : BitVec 2 :=
  match i.channel with
  | some n => n.field
  | none => 0

/-- The operation word, format O: op[7:4], z[3:2] = 00, n[1:0] (R60, R62). -/
def encode {NCH : Nat} (i : Instr NCH) : BitVec 8 := i.opcode ++ (0 : BitVec 2) ++ i.nField

/-- "The encoding of a trace is the sequence of its operation words" (R71). -/
def encodeTrace {NCH : Nat} (is : List (Instr NCH)) : List (BitVec 8) := is.map encode

end Sys2Proof
end

