-- ==== Sys2Proof/Machine/State.lean ====
section
/-!
DEFINITION. The state of PWT: the ten registers of 10_state.md R21, the result last delivered on the port c_rdata, and the
events the environment has chosen to come; the reasons a step can stop; and the state after reset.
-/

namespace Sys2Proof.Machine

/-- The three registers of one channel (R21): W[n], S[n], F[n], at width TSW (R6, R7). -/
@[ext] structure ChanRegs (TSW : Nat := 32) where
  /-- W[n], the width register: the last accepted measurement (R22). -/
  w : Word TSW
  /-- S[n], the start register: the timestamp of the latest rising edge, 0 for none pending (R23). -/
  s : Word TSW
  /-- F[n], the ready flag (R24). -/
  f : Bool
  deriving DecidableEq, Repr

/-- What the outside world can do to PWT, one operation at a time (R13, R14, R72). PWT has no program counter: "the next
instruction" is the environment's choice (R26, D15). -/
inductive Event (NCH : Nat := 3) where
  /-- The next operation word of a trace, performed by the agent its opcode names (R15, R71). -/
  | word (w : BitVec 8)
  /-- pin[n] changes to the given level, 1 for a rising edge and 0 for a falling edge (R72, R77). -/
  | pin (n : Channel NCH) (level : Bool)
  /-- Input rst is asserted (R72, R130). -/
  | reset
  /-- The timebase advances: TICK has no port, "the timebase runs by itself" (R153). -/
  | microsecond
  /-- c_valid = 1 with a word on c_cmd (R72, R153). -/
  | command (w : BitVec 8)
  deriving DecidableEq, Repr

/-- The state of PWT, for each value of the named parameters TSW and NCH; State without its arguments is PWT at the defaults,
32 bits and 3 channels (R5, R6, U9, U23). Entries 2 and 13. -/
structure State (TSW : Nat := 32) (NCH : Nat := 3) where
  /-- The registers of every channel, "with channel n at index n − 1" (R21). -/
  chans : Vector (ChanRegs TSW) NCH
  /-- NOW, the timebase (R25). -/
  now : Word TSW
  /-- Port c_rdata: the result most recently delivered to the consumer (R72, R83), none before the first consumer
  operation. It records what was delivered and claims nothing of the wires between two presentations. Entry 5. -/
  cRdata : Option (Word TSW)
  /-- The events to come, the next one first: the model's own field for the environment's choices. Entry 3. -/
  pending : List (Event NCH)
  deriving DecidableEq, Repr

/-- PWT has no fault outcome: "No operation of PWT raises an exception, reports an error, sets an error bit or stops the
block" (R107), "it has no fault outcome" (R127). So the type of faults is empty. -/
inductive Fault
  deriving DecidableEq, Repr

/-- Why the model gives an event no meaning. -/
inductive Refusal where
  /-- Raised by exec for an operation with no meaning yet; no arm of this model does. Safe: the model stops. -/
  | notModelled (mnemonic : String)
  /-- Raised by a step whose next event is a trace word that spells no operation: "a model refuses it at decode" (R68, U2,
  D11). Safe: the model stops where no trace of PWT goes on. -/
  | invalidWord (w : BitVec 8) (why : Invalid)
  deriving DecidableEq, Repr

/-- A channel's registers after reset (R35): W[n] = 1500 is the source's, S[n] = 0 and F[n] = 0 are decision D4. -/
def ChanRegs.reset {TSW : Nat} : ChanRegs TSW := { w := Config.wReset, s := Config.sNone, f := false }

/-- The launch state for a given NOW_RESET (R15), at any width and number of channels. -/
def State.launch {TSW NCH : Nat} (nowReset : Word TSW) : State TSW NCH :=
  { chans := Vector.replicate NCH ChanRegs.reset
    now := nowReset
    cRdata := none
    pending := [] }

/-- The machine right after reset, at the defaults: the launch state at the open parameter NOW_RESET (R11, R15, R35). -/
def State.reset : State := State.launch Config.nowReset

end Sys2Proof.Machine
end

