-- ==== Sys2Proof/Machine/Ops.lean ====
section
/-!
DEFINITION. The named operations over the registers of PWT: reading and writing each register file, the timebase and the
read-data port, resetting the channels, taking the next event, and running one outcome after another.
PWT takes no exception and has no return from one: "There is no trap entry. Nothing is saved, no mode changes" (R118),
"There is no trap-return operation" (R119). So no operation here takes or leaves an exception. It has no memory (R41).
-/

namespace Sys2Proof.Machine

variable {TSW NCH : Nat}

/-- The registers of a channel, selected by channel number (R41, R158). -/
def State.chan (st : State TSW NCH) (n : Channel NCH) : ChanRegs TSW := st.chans[n.idx]

/-- Replace the registers of one channel. -/
def State.setChan (st : State TSW NCH) (n : Channel NCH) (r : ChanRegs TSW) : State TSW NCH :=
  { st with chans := st.chans.set n.idx r }

/-- Register read W[n]. -/
def State.W (st : State TSW NCH) (n : Channel NCH) : Word TSW := (st.chan n).w

/-- Register read S[n]. -/
def State.S (st : State TSW NCH) (n : Channel NCH) : Word TSW := (st.chan n).s

/-- Register read F[n]. -/
def State.F (st : State TSW NCH) (n : Channel NCH) : Bool := (st.chan n).f

/-- Register write W[n] <- v. -/
def State.setW (st : State TSW NCH) (n : Channel NCH) (v : Word TSW) : State TSW NCH :=
  st.setChan n { st.chan n with w := v }

/-- Register write S[n] <- v. -/
def State.setS (st : State TSW NCH) (n : Channel NCH) (v : Word TSW) : State TSW NCH :=
  st.setChan n { st.chan n with s := v }

/-- Register write F[n] <- v. -/
def State.setF (st : State TSW NCH) (n : Channel NCH) (v : Bool) : State TSW NCH :=
  st.setChan n { st.chan n with f := v }

/-- Register write NOW <- v. -/
def State.setNow (st : State TSW NCH) (v : Word TSW) : State TSW NCH := { st with now := v }

/-- "return v": the value reaches the consumer on c_rdata in the same atomic step (R83). -/
def State.deliver (st : State TSW NCH) (v : Word TSW) : State TSW NCH := { st with cRdata := some v }

/-- Every channel's registers at their reset values, NOW not written (R90). -/
def State.resetChannels (st : State TSW NCH) : State TSW NCH :=
  { st with chans := Vector.replicate NCH ChanRegs.reset }

/-- The state with its list of events to come replaced. -/
def State.withPending (st : State TSW NCH) (es : List (Event NCH)) : State TSW NCH := { st with pending := es }

/-- Go on from an outcome: a stop stays a stop. -/
def andThen {α β : Type} (o : Host.Outcome α Fault Refusal) (k : α → Host.Outcome β Fault Refusal) :
    Host.Outcome β Fault Refusal :=
  match o with
  | .next a => k a
  | .fault r => .fault r
  | .refused r => .refused r

end Sys2Proof.Machine
end

