-- ==== Sys2Proof/Machine/Operands.lean ====
section
/-!
DEFINITION. The operand forms of PWT and the values computed from them. The only operand field is the channel number
(30_encoding.md R61), whose one addressing mode is direct selection (R158); the implicit operands of an edge operation are
NOW, read once (R77), and S[n]. There are no immediates (R74).
-/

namespace Sys2Proof.Machine

variable {TSW NCH : Nat}

/-- The timestamp of an edge: "Each operation reads NOW exactly once, at the instant it executes" (R77). -/
def State.timestamp (st : State TSW NCH) : Word TSW := st.now

/-- A rising edge is pending: S[n] is not the sentinel (R9, R23). -/
def State.startPending (st : State TSW NCH) (n : Channel NCH) : Bool := st.S n != Config.sNone

/-- The measured width, NOW −_TSW S[n], modulo 2^TSW on unsigned operands (R76). -/
def State.elapsed (st : State TSW NCH) (n : Channel NCH) : Word TSW := st.timestamp - st.S n

/-- zext_TSW of the one-bit flag (R80): "bit 0 = F[n], bits TSW−1:1 read as 0" (R27). -/
def zextFlag (f : Bool) : Word TSW := (BitVec.ofBool f).zeroExtend TSW

/-- The timebase one microsecond later, NOW +_TSW 1 (R89). -/
def State.nextMicrosecond (st : State TSW NCH) : Word TSW := st.now + 1

end Sys2Proof.Machine
end

