-- ==== Sys2Proof/Machine/Flags.lean ====
section
/-!
DEFINITION. The flag computations of PWT: the guard of a falling edge, and setting and clearing the ready flag
(10_state.md R24). There are no arithmetic condition codes (R24).
-/

namespace Sys2Proof.Machine

variable {TSW NCH : Nat}

/-- The guard of FALL n: "the conjunction S[n] ≠ 0 and F[n] = 0, evaluated on the state before the operation" (R116). -/
def State.accepts (st : State TSW NCH) (n : Channel NCH) : Bool := st.startPending n && !st.F n

/-- What an accepted FALL n writes, in the visibility order of R76: the width, then the cleared start, and the flag last
(release, R50). -/
def State.publish (st : State TSW NCH) (n : Channel NCH) : State TSW NCH :=
  ((st.setW n (st.elapsed n)).setS n Config.sNone).setF n true

/-- Hand the buffer of channel n back to the producer: F[n] <- 0, unconditionally (R82, D13). -/
def State.releaseBuffer (st : State TSW NCH) (n : Channel NCH) : State TSW NCH := st.setF n false

end Sys2Proof.Machine
end

