-- ==== Sys2Proof/Machine/Consumer.lean ====
section
/-!
DEFINITION. The consumer operations, the handshake (41_consumer_handshake.md): RDF n, RDW n and CLR n. The hardware does not
check the order in which the consumer performs them (R85, D13).
-/

namespace Sys2Proof.Machine

variable {TSW NCH : Nat}

/-- RDF n (R80): return F[n] zero-extended; no register changes. -/
def execRdf (n : Channel NCH) (st : State TSW NCH) : Host.Outcome (State TSW NCH) Fault Refusal :=
  .next (st.deliver (zextFlag (st.F n)))

/-- RDW n (R81): return all bits of W[n]; no register changes. Outside the ownership window of R84 this is the atomic
model's result. DESIGN CHOICE, entry 6. -/
def execRdw (n : Channel NCH) (st : State TSW NCH) : Host.Outcome (State TSW NCH) Fault Refusal :=
  .next (st.deliver (st.W n))

/-- CLR n (R82): F[n] <- 0, unconditionally; "The port returns 0 on c_rdata". -/
def execClr (n : Channel NCH) (st : State TSW NCH) : Host.Outcome (State TSW NCH) Fault Refusal :=
  .next ((st.releaseBuffer n).deliver 0)

end Sys2Proof.Machine
end

