-- ==== Sys2Proof/Machine/Producer.lean ====
section
/-!
DEFINITION. The producer operations, the source's edge handler (40_producer_edge_capture.md): RISE n and FALL n.
-/

namespace Sys2Proof.Machine

variable {TSW NCH : Nat}

/-- RISE n (R75): S[n] <- NOW, whether or not a start or a sample is pending. -/
def execRise (n : Channel NCH) (st : State TSW NCH) : Host.Outcome (State TSW NCH) Fault Refusal :=
  .next (st.setS n st.timestamp)

/-- FALL n (R76, R159): publish the measured width if a start is pending and the buffer is free; otherwise the edge is
ignored and no register is written (stale start R110, overrun R109, decision D27). -/
def execFall (n : Channel NCH) (st : State TSW NCH) : Host.Outcome (State TSW NCH) Fault Refusal :=
  if st.accepts n then .next (st.publish n) else .next st

end Sys2Proof.Machine
end

