-- ==== Sys2Proof/Machine/Timebase.lean ====
section
/-!
DEFINITION. The timebase and reset operations (42_timebase_and_reset.md): TICK and RST.
-/

namespace Sys2Proof.Machine

variable {TSW NCH : Nat}

/-- TICK (R89): NOW <- NOW +_TSW 1. No channel register is read or written. -/
def execTick (st : State TSW NCH) : Host.Outcome (State TSW NCH) Fault Refusal :=
  .next (st.setNow st.nextMicrosecond)

/-- RST (R90): W[n] <- 1500, S[n] <- 0, F[n] <- 0 for every channel; NOW is not written. -/
def execRst (st : State TSW NCH) : Host.Outcome (State TSW NCH) Fault Refusal :=
  .next st.resetChannels

end Sys2Proof.Machine
end

