-- ==== Sys2Proof/Machine/Dispatch.lean ====
section
/-! DEFINITION. One arm per operation of the opcode table, each one call of its meaning. -/

namespace Sys2Proof.Machine

def exec (i : Instr) (s : State) : Host.Outcome State Fault Refusal :=
  match i with
  | .rise n => Sys2Proof.Machine.execRise n s
  | .fall n => Sys2Proof.Machine.execFall n s
  | .rdf n => Sys2Proof.Machine.execRdf n s
  | .rdw n => Sys2Proof.Machine.execRdw n s
  | .clr n => Sys2Proof.Machine.execClr n s
  | .tick => Sys2Proof.Machine.execTick s
  | .rst => Sys2Proof.Machine.execRst s

end Sys2Proof.Machine
end

