-- ==== Sys2Proof/Machine/Ports.lean ====
section
/-!
DEFINITION. What each event does: the ports of 30_encoding.md R72 and R153, and the words of a trace (R68, R71).
-/

namespace Sys2Proof.Machine

/-- A word the consumer port ignores: "no register changes and c_rdata is 0" (R68). -/
def ignoreCommand (st : State) : Host.Outcome State Fault Refusal := .next (st.deliver 0)

/-- One presentation of c_valid = 1 (R153): RDF, RDW and CLR execute; an invalid word, and any word of another domain, is
ignored, so "the consumer cannot inject edges, advance time or reset the block through this port". -/
def performCommand (w : BitVec 8) (st : State) : Host.Outcome State Fault Refusal :=
  match decode w with
  | .op i => if i.agent = .consumer then exec i st else ignoreCommand st
  | .invalid _ => ignoreCommand st

/-- The next word of a trace: the operation it spells; a word that spells none is refused by name (R68, U2). -/
def performWord (w : BitVec 8) (st : State) : Host.Outcome State Fault Refusal :=
  match decode w with
  | .op i => exec i st
  | .invalid why => .refused (.invalidWord w why)

/-- A level change of pin[n]: "A change of pin[n] from 0 to 1 is the operation RISE n; a change from 1 to 0 is FALL n"
(R72, R77). -/
def performEdge (n : Channel) (level : Bool) (st : State) : Host.Outcome State Fault Refusal :=
  if level then exec (.rise n) st else exec (.fall n) st

/-- The operation an event makes PWT perform, if it is one: the ports of R72, R77, R130, R153 and the words of R68. -/
def Event.operation : Event → Option Instr
  | .word w =>
    match decode w with
    | .op i => some i
    | .invalid _ => none
  | .pin n level => some (if level then .rise n else .fall n)
  | .reset => some .rst
  | .microsecond => some .tick
  | .command w =>
    match decode w with
    | .op i => if i.agent = .consumer then some i else none
    | .invalid _ => none

/-- What an event does to PWT. -/
def perform (e : Event) (st : State) : Host.Outcome State Fault Refusal :=
  match e with
  | .word w => performWord w st
  | .pin n level => performEdge n level st
  | .reset => exec .rst st
  | .microsecond => exec .tick st
  | .command w => performCommand w st

/-- No event is pending: nothing happens. "A run has no architected end" (R18), and no operation, no change. DESIGN CHOICE,
entry 4. -/
def idle (st : State) : Host.Outcome State Fault Refusal := .next st

/-- Take the next event the environment has chosen and perform it. -/
def performNext (st : State) : Host.Outcome State Fault Refusal :=
  match st.pending with
  | [] => idle st
  | e :: es => perform e (st.withPending es)

/-- The state whose next event is one trace word. -/
def State.presentWord (st : State) (w : BitVec 8) : State := st.withPending (.word w :: st.pending)

end Sys2Proof.Machine
end

