-- ==== Sys2Proof/Machine/Step.lean ====
section
/-!
DEFINITION. One step of PWT: the next event, performed as one atomic transition (00_scope.md R14). PWT fetches no
instruction (R57); what stands in the place of fetch is the environment's list of events to come.
-/

namespace Sys2Proof.Machine

/-- One step: the next pending event is taken off and performed. -/
def step (s : State) : Host.Outcome State Fault Refusal := performNext s

/-- The state s with one operation word, numbered as spec/opcode_table.json numbers it, placed where step takes its next
operation: at the head of the events to come, as a word of a trace. Every word of PWT has 8 bits (R59). Entry 3. -/
def State.withFetchWord (s : State) (nbits w : Nat) : State :=
  s.presentWord (BitVec.ofNat 8 (w % 2 ^ nbits))

end Sys2Proof.Machine
end

