-- ==== Sys2Proof/Machine/Trace.lean ====
section
/-!
DEFINITION. Runs of operations (00_scope.md R14, R15), the pseudo-operations ADV, TAKE and POLL (30_encoding.md R73, R154,
41_consumer_handshake.md R87, R88, 42_timebase_and_reset.md R91) and the trace syntax (R71). TAKE and POLL are consumer
software, not operations of PWT: their branch "is taken by the consumer, outside the block" (R154). They are written over
exec, so that they do what the operations do.
-/

namespace Sys2Proof.Machine

/-- Operations applied one after another (R14). -/
def runOps : List Instr → State → Host.Outcome State Fault Refusal
  | [], st => .next st
  | i :: is, st => andThen (exec i st) (runOps is)

/-- The expansion of ADV d: "d consecutive TICKs; for d = 0, nothing" (R91). -/
def advOps (d : Nat) (NCH : Nat := 3) : List (Instr NCH) := List.replicate d .tick

/-- The expansion of TAKE n: the one operation RDF n if it returned 0, the three of the round if it returned 1 (R87). -/
def takeOps (n : Channel) (ready : Bool) : List Instr :=
  if ready then [.rdf n, .rdw n, .clr n] else [.rdf n]

/-- What a consumer has received: the state it leaves and the widths delivered, each with its channel, oldest first. -/
structure Taken where
  state : State
  delivered : List (Channel × Word)
  deriving DecidableEq, Repr

/-- Steps 2 and 3 of a round, after RDF n returned 1 (R87): read the width, clear the flag, deliver the width. -/
def finishRound (n : Channel) (st : State) : Host.Outcome Taken Fault Refusal :=
  andThen (exec (.rdw n) st) fun s2 =>
    andThen (exec (.clr n) s2) fun s3 =>
      .next { state := s3, delivered := (s2.cRdata.map fun v => (n, v)).toList }

/-- TAKE n, one protocol round with nothing in between (R87): the consumer branches on the value RDF n returned. -/
def take (n : Channel) (st : State) : Host.Outcome Taken Fault Refusal :=
  andThen (exec (.rdf n) st) fun s1 =>
    if s1.cRdata = some 1 then finishRound n s1 else .next { state := s1, delivered := [] }

/-- TAKE of each listed channel in turn. -/
def takeEach : List Channel → State → Host.Outcome Taken Fault Refusal
  | [], st => .next { state := st, delivered := [] }
  | n :: ns, st =>
    andThen (take n st) fun a =>
      andThen (takeEach ns a.state) fun b =>
        .next { state := b.state, delivered := a.delivered ++ b.delivered }

/-- POLL: "TAKE 1, TAKE 2, TAKE 3, in that order" (R88). -/
def poll (st : State) : Host.Outcome Taken Fault Refusal := takeEach Channel.all st

/-! ### The trace syntax -/

/-- A line of a trace (R71, R73). -/
inductive Line where
  /-- An operation, with the value a consumer read must return where the line is annotated. -/
  | op (i : Instr) (expected : Option Nat)
  | adv (d : Nat)
  | take (n : Channel)
  | poll
  deriving DecidableEq, Repr

/-- What a line does: the state it leaves and the widths it delivers. The annotation "is a check and not part of the
encoding" (R71). -/
def Line.run (l : Line) (st : State) : Host.Outcome Taken Fault Refusal :=
  match l with
  | .op i _ => andThen (exec i st) fun t => .next { state := t, delivered := [] }
  | .adv d => andThen (runOps (advOps d) st) fun t => .next { state := t, delivered := [] }
  | .take n => Machine.take n st
  | .poll => Machine.poll st

/-- Whether a line's annotation, if it has one, agrees with the value returned (R71): the annotation is a number, so one that
no register can hold agrees with nothing. -/
def Line.agrees (l : Line) (st : State) : Bool :=
  match l with
  | .op i (some v) =>
    match exec i st with
    | .next t => t.cRdata.map BitVec.toNat == some v
    | .fault _ => false
    | .refused _ => false
  | .op _ none => true
  | .adv _ => true
  | .take _ => true
  | .poll => true

/-- "; starts a comment that runs to the end of the line" (R71). -/
def stripComment (cs : List Char) : List Char := cs.takeWhile (· != ';')

/-- Text without its trailing blanks. -/
def dropTrailingBlanks : List Char → List Char
  | [] => []
  | c :: cs =>
    match dropTrailingBlanks cs with
    | [] => if c = ' ' then [] else [c]
    | d :: ds => c :: d :: ds

/-- Split at each separator: the first piece and the pieces after it, empty ones too. -/
def splitAtEach (sep : Char) : List Char → List Char × List (List Char)
  | [] => ([], [])
  | c :: cs =>
    let (piece, rest) := splitAtEach sep cs
    if c = sep then ([], piece :: rest) else (c :: piece, rest)

/-- The tokens of a line. Exactly one blank stands between two tokens, "for a channel operation one blank and the channel
number" (R71): a doubled or leading blank leaves an empty token, which no line has. Blanks before a comment are no token. -/
def tokens (cs : List Char) : List (List Char) :=
  match dropTrailingBlanks (stripComment cs) with
  | [] => []
  | d :: ds =>
    let (piece, rest) := splitAtEach ' ' (d :: ds)
    piece :: rest

/-- The value of a decimal digit. -/
def digitValue (c : Char) : Option Nat :=
  if '0' ≤ c ∧ c ≤ '9' then some (c.toNat - '0'.toNat) else none

/-- A decimal number, from its value so far. -/
def numberFrom (acc : Nat) : List Char → Option Nat
  | [] => some acc
  | c :: cs =>
    match digitValue c with
    | some d => numberFrom (10 * acc + d) cs
    | none => none

/-- A non-empty decimal number. -/
def number (cs : List Char) : Option Nat := if cs.isEmpty then none else numberFrom 0 cs

/-- "the channel number as a decimal digit 1, 2 or 3" (R71). -/
def channelToken (t : List Char) : Option Channel :=
  match t with
  | [c] => (digitValue c).bind Channel.ofNumber
  | _ => none

/-- The channel operation a mnemonic names. -/
def channelMnemonic (t : List Char) : Option (Channel → Instr) :=
  if t = "RISE".toList then some .rise
  else if t = "FALL".toList then some .fall
  else if t = "RDF".toList then some .rdf
  else if t = "RDW".toList then some .rdw
  else if t = "CLR".toList then some .clr
  else none

/-- A consumer read, the only operation that may be annotated (R71). -/
def isRead : Instr → Bool
  | .rdf _ => true
  | .rdw _ => true
  | .rise _ => false
  | .fall _ => false
  | .clr _ => false
  | .tick => false
  | .rst => false

/-- A line of one token. -/
def oneToken (a : List Char) : Option Line :=
  if a = "TICK".toList then some (.op .tick none)
  else if a = "RST".toList then some (.op .rst none)
  else if a = "POLL".toList then some .poll
  else none

/-- A line of two tokens. -/
def twoTokens (a b : List Char) : Option Line :=
  if a = "ADV".toList then (number b).map .adv
  else if a = "TAKE".toList then (channelToken b).map .take
  else
    match channelMnemonic a, channelToken b with
    | some mk, some n => some (.op (mk n) none)
    | _, _ => none

/-- A line of four tokens: an annotated read. -/
def fourTokens (a b c d : List Char) : Option Line :=
  match channelMnemonic a, channelToken b, number d with
  | some mk, some n, some v =>
    if c = "->".toList ∧ isRead (mk n) then some (.op (mk n) (some v)) else none
  | _, _, _ => none

/-- A line of text: nothing for a line outside the syntax, no line for a blank one ("blank lines are ignored", R71).
Entry 10. -/
def parseLine (cs : List Char) : Option (Option Line) :=
  match tokens cs with
  | [] => some none
  | [a] => (oneToken a).map some
  | [a, b] => (twoTokens a b).map some
  | [a, b, c, d] => (fourTokens a b c d).map some
  | _ => none

/-- The lines of a text, blank ones left out, or nothing if one of them is outside the syntax. -/
def parseLines : List (List Char) → Option (List Line)
  | [] => some []
  | cs :: rest =>
    match parseLine cs, parseLines rest with
    | some (some l), some ls => some (l :: ls)
    | some none, some ls => some ls
    | _, _ => none

/-- A trace as text, "one operation per line" (R71). -/
def parseTrace (cs : List Char) : Option (List Line) :=
  let (first, rest) := splitAtEach '\n' cs
  parseLines (first :: rest)

/-- The lines of a trace run one after another, and the widths they deliver. -/
def runLines : List Line → State → Host.Outcome Taken Fault Refusal
  | [], st => .next { state := st, delivered := [] }
  | l :: ls, st =>
    andThen (l.run st) fun a =>
      andThen (runLines ls a.state) fun b =>
        .next { state := b.state, delivered := a.delivered ++ b.delivered }

/-- Whether every annotation of a trace agrees with the value its read returns (R71). -/
def linesAgree : List Line → State → Bool
  | [], _ => true
  | l :: ls, st =>
    l.agrees st &&
      match l.run st with
      | .next a => linesAgree ls a.state
      | .fault _ => false
      | .refused _ => false

/-- The mnemonic of an operation, in capitals (R62, R71). -/
def mnemonicOf : Instr → String
  | .rise _ => "RISE"
  | .fall _ => "FALL"
  | .rdf _ => "RDF"
  | .rdw _ => "RDW"
  | .clr _ => "CLR"
  | .tick => "TICK"
  | .rst => "RST"

/-- The digit of a channel. -/
def digitOf (n : Channel) : Char := Nat.digitChar n.number

/-- The line of text for an operation (R71). -/
def spell (i : Instr) : List Char :=
  match i.channel with
  | some n => (mnemonicOf i).toList ++ [' ', digitOf n]
  | none => (mnemonicOf i).toList

/-- The text of a trace, each line ended by a newline (R71). -/
def spellTrace : List Instr → List Char
  | [] => []
  | i :: is => spell i ++ '\n' :: spellTrace is

end Sys2Proof.Machine
end

