-- ==== Sys2Proof/Machine/Environment.lean ====
section
/-!
DEFINITION. The reference consumer of 43_consumer_environment.md: the control loop, the three mappers, the colour cursor, the
outputs and the log. It is NOT part of PWT (00_scope.md R4(a), R94) and State carries none of it (10_state.md R39); it is
written on top of the machine, over TAKE and POLL. Its arithmetic is over the integers (R97).
-/

namespace Sys2Proof.Machine

/-- A line of the diagnostic channel: the startup banner, whose text is not given, or one processed sample (R102). -/
inductive LogLine where
  | banner
  | sample (n : Channel) (p : Word)
  deriving DecidableEq, Repr

/-- The text of a sample's log line, "[CHn] PWM: <value>" in decimal (R102). -/
def LogLine.text : LogLine → Option String
  | .banner => none
  | .sample n p => some ("[CH" ++ toString n.number ++ "] PWM: " ++ toString p.toNat)

/-- The state of the reference consumer: ColorState and the five outputs (R39, R100, R101), and the log. -/
structure Env where
  idx : Fin Config.ncol
  led1 : Duty
  led2 : Duty
  red : Duty
  green : Duty
  blue : Duty
  log : List LogLine
  deriving DecidableEq, Repr

/-- The consumer at start: index 0, outputs not given (R106). Entry 11. -/
def Env.reset : Env :=
  { idx := 0
    led1 := Config.led1Reset
    led2 := Config.led2Reset
    red := Config.rgbReset.1
    green := Config.rgbReset.2.1
    blue := Config.rgbReset.2.2
    log := [.banner] }

/-- Channel 1, "switch": ON if p > SW_THRESH, else OFF, which is duty 0 (R96). -/
def switchOn (p : Word) : Bool := decide ((p.toNat : Int) > Config.swThresh)

/-- The duty value of the switch output, given the value that ON denotes (R96, C12). -/
def switchDuty (ledOn : Duty) (p : Word) : Duty := if switchOn p then ledOn else 0

/-- A quotient rounded to an integer, for a positive divisor (R97; the candidates of 95_test_vectors.md EV1). -/
def roundQuotient (mode : RoundMode) (num den : Int) : Int :=
  match mode with
  | .truncate => num.tdiv den
  | .nearestHalfUp =>
    if 0 ≤ num then (2 * num + den) / (2 * den) else -((2 * -num + den) / (2 * den))
  | .nearestHalfEven =>
    let q := num / den
    let r := num % den
    if 2 * r < den then q
    else if 2 * r > den then q + 1
    else if q % 2 = 0 then q
    else q + 1

/-- Clamp to [0, DUTY_MAX] (R97). -/
def clampDuty (x : Int) : Int := max 0 (min x Config.dutyMax)

/-- Channel 2, "dimmer", as an integer: clamp(round((p − DIM_LO) × DUTY_MAX / (DIM_HI − DIM_LO)), 0, DUTY_MAX), over ℤ
(R97). -/
def dimmer (mode : RoundMode) (p : Word) : Int :=
  clampDuty (roundQuotient mode (((p.toNat : Int) - Config.dimLo) * Config.dutyMax) (Config.dimHi - Config.dimLo))

/-- The duty value of the dimmer output. -/
def dimmerDuty (mode : RoundMode) (p : Word) : Duty := Fin.ofNat (Config.dutyMax + 1) (dimmer mode p).toNat

/-- The colour table (R99). -/
def colour : Fin Config.ncol → Duty × Duty × Duty
  | 0 => (255, 0, 0)
  | 1 => (0, 255, 0)
  | 2 => (0, 0, 255)
  | 3 => (255, 255, 0)
  | 4 => (0, 255, 255)
  | 5 => (255, 0, 255)

/-- The trigger test of channel 3, made on every consumed sample (R98, C7). -/
def triggers (p : Word) : Bool := decide ((p.toNat : Int) > Config.trigThresh)

/-- Advance ColorState by one, modulo NCOL, and apply the colour of the new index (R98, R100). -/
def Env.advanceColour (v : Env) : Env :=
  let i := v.idx + 1
  { v with idx := i, red := (colour i).1, green := (colour i).2.1, blue := (colour i).2.2 }

/-- Channel 3, "trigger" (R98): nothing is written for p ≤ TRIG_THRESH. -/
def Env.trigger (v : Env) (p : Word) : Env := if triggers p then v.advanceColour else v

/-- The mapper of a channel (R95, R105): channel 1 the switch, 2 the dimmer, 3 the trigger, by index. -/
def Env.map (v : Env) (n : Channel) (p : Word) : Env :=
  match n.idx with
  | 0 => { v with led1 := switchDuty Config.ledOn p }
  | 1 => { v with led2 := dimmerDuty Config.roundMode p }
  | 2 => v.trigger p

/-- Run the mapper on a delivered width and write one log line (R95). -/
def Env.process (v : Env) (n : Channel) (p : Word) : Env :=
  { v.map n p with log := v.log ++ [.sample n p] }

/-- Process every width of a polling cycle in the order delivered; a channel that delivered none keeps its output (R104). -/
def Env.processAll (v : Env) (ps : List (Channel × Word)) : Env :=
  ps.foldl (fun v np => v.process np.1 np.2) v

/-! ### The control loop -/

/-- "the consumer's position in its polling cycle" (R39): which operation it performs next. -/
inductive LoopPos where
  /-- TAKE n begins: RDF n comes next (R87). -/
  | readFlag (n : Channel)
  /-- RDF n returned 1: RDW n comes next. -/
  | readWidth (n : Channel)
  /-- RDW n returned this width: CLR n comes next. -/
  | clear (n : Channel) (p : Word)
  /-- The cycle is done: the wait of R103, after which the next cycle begins. -/
  | pause
  deriving DecidableEq, Repr

/-- The position after the round on channel n: POLL goes on to the next number (R88); after the last comes the wait (R95). -/
def LoopPos.afterRound (n : Channel) : LoopPos :=
  match Channel.ofNumber (n.number + 1) with
  | some m => .readFlag m
  | none => .pause

/-- The operation the consumer performs next; the end of the wait is none. -/
def LoopPos.operation : LoopPos → Option Instr
  | .readFlag n => some (.rdf n)
  | .readWidth n => some (.rdw n)
  | .clear n _ => some (.clr n)
  | .pause => none

/-- PWT with the reference consumer attached. -/
structure System where
  pwt : State
  env : Env
  pos : LoopPos
  deriving DecidableEq, Repr

/-- The launch of the whole: PWT in the launch state, the consumer at start, its first cycle about to begin (R15, R95, R106). -/
def System.launch (nowReset : Word) : System :=
  { pwt := State.launch nowReset, env := Env.reset, pos := .readFlag .one }

/-- One cycle of the control loop (R95) when no operation of another agent falls inside it: steps 1 and 2 at once. -/
def System.cycle (y : System) : Host.Outcome System Fault Refusal :=
  andThen (poll y.pwt) fun a => .next { y with pwt := a.state, env := y.env.processAll a.delivered }

/-- Dispatch to the mapper of channel n, if this is the moment for it (R95, C6). -/
def Env.dispatchWhen (v : Env) (now : Bool) (n : Channel) (p : Word) : Env := if now then v.process n p else v

/-- Step 1 of a round (R87): the consumer branches on the value RDF n returned. -/
def System.readFlag (y : System) (n : Channel) : Host.Outcome System Fault Refusal :=
  andThen (exec (.rdf n) y.pwt) fun s =>
    .next { y with pwt := s, pos := if s.cRdata = some 1 then .readWidth n else .afterRound n }

/-- Step 2 of a round: the value RDW n returned is the sample. (RDW n always delivers one, so the second branch is not reached.) -/
def System.readWidth (y : System) (n : Channel) : Host.Outcome System Fault Refusal :=
  andThen (exec (.rdw n) y.pwt) fun s =>
    match s.cRdata with
    | some p => .next { pwt := s, env := y.env.dispatchWhen Config.actBeforeClear n p, pos := .clear n p }
    | none => .next { y with pwt := s }

/-- Step 3 of a round: CLR n, and the dispatch where it follows the clear. -/
def System.clear (y : System) (n : Channel) (p : Word) : Host.Outcome System Fault Refusal :=
  andThen (exec (.clr n) y.pwt) fun s =>
    .next { pwt := s, env := y.env.dispatchWhen (!Config.actBeforeClear) n p, pos := .afterRound n }

/-- The consumer's next move; "The loop runs forever", so after the wait the next cycle begins (R95). -/
def System.consume (y : System) : Host.Outcome System Fault Refusal :=
  match y.pos with
  | .readFlag n => y.readFlag n
  | .readWidth n => y.readWidth n
  | .clear n p => y.clear n p
  | .pause => .next { y with pos := .readFlag .one }

/-- Whose turn it is, and what that agent does: "operations of other agents may fall between" the steps of a round (R87), and
"during" the wait "PWT keeps capturing edges" (R125). The consumer's only operations are the loop's. -/
inductive Turn where
  /-- The control loop makes its next move; in the wait, the wait ends. -/
  | consumer
  /-- pin[n] changes to the given level (R72, R77). -/
  | edge (n : Channel) (level : Bool)
  /-- The timebase advances (R89). -/
  | microsecond
  /-- Input rst is asserted (R130); the consumer is not told (R146). -/
  | reset
  deriving DecidableEq, Repr

/-- The operation of PWT that a turn performs, if it performs one. -/
def Turn.operation (u : Turn) (pos : LoopPos) : Option Instr :=
  match u with
  | .consumer => pos.operation
  | .edge n level => some (if level then .rise n else .fall n)
  | .microsecond => some .tick
  | .reset => some .rst

/-- An operation of another agent: PWT performs it, the consumer and its position stay. -/
def System.intrude (y : System) (i : Instr) : Host.Outcome System Fault Refusal :=
  andThen (exec i y.pwt) fun s => .next { y with pwt := s }

/-- One turn. -/
def System.turn (u : Turn) (y : System) : Host.Outcome System Fault Refusal :=
  match u with
  | .consumer => y.consume
  | .edge n level => y.intrude (if level then .rise n else .fall n)
  | .microsecond => y.intrude .tick
  | .reset => y.intrude .rst

/-- Turns one after another, in the order the environment chooses (R14): a finite prefix of the endless run. -/
def System.turns : List Turn → System → Host.Outcome System Fault Refusal
  | [], y => .next y
  | u :: us, y => andThen (y.turn u) (System.turns us)

/-- The trace of PWT's operations that the turns perform. -/
def System.trace : List Turn → System → List Instr
  | [], _ => []
  | u :: us, y =>
    (u.operation y.pos).toList ++
      match y.turn u with
      | .next z => System.trace us z
      | .fault _ => []
      | .refused _ => []

/-- The wait of R103 in its nominal length, "of the order of 50 000 TICKs": microseconds with no edge among them. -/
def nominalPause : List Turn := List.replicate (1000 * Config.pollDelayMs) .microsecond

/-- The widths of channel n that the log has lines for, oldest first. -/
def Env.logged (v : Env) (n : Channel) : List Word :=
  v.log.filterMap fun l =>
    match l with
    | .banner => none
    | .sample m p => if m = n then some p else none

/-- The sample now waiting in W[n] has been acted on already: its CLR n is still to come (R95, C6). -/
def System.actedOn (y : System) (n : Channel) : Bool :=
  match y.pos with
  | .readFlag _ => false
  | .readWidth _ => false
  | .clear m _ => Config.actBeforeClear && decide (m = n)
  | .pause => false

end Sys2Proof.Machine
end

