-- ==== Sys2Proof/Machine/Width.lean ====
section
/-!
DEFINITION. PWT at any width and any number of channels: TSW and NCH are named parameters of the model with defaults 32 and 3
(00_scope.md R5, R6, R19; U9, U23). Every operation's meaning takes them; exec, step and the pseudo-operations are at the
defaults. Here are the operations and their runs at values of the reader's choice. Entries 2 and 13.
-/

namespace Sys2Proof.Machine

variable {TSW NCH : Nat}

/-- One operation at width TSW with NCH channels; at the defaults this is exec (Laws/Width.lean). -/
def execAtWidth (i : Instr NCH) (st : State TSW NCH) : Host.Outcome (State TSW NCH) Fault Refusal :=
  match i with
  | .rise n => execRise n st
  | .fall n => execFall n st
  | .rdf n => execRdf n st
  | .rdw n => execRdw n st
  | .clr n => execClr n st
  | .tick => execTick st
  | .rst => execRst st

/-- Operations applied one after another (R14), at width TSW with NCH channels. -/
def runAtWidth : List (Instr NCH) → State TSW NCH → Host.Outcome (State TSW NCH) Fault Refusal
  | [], st => .next st
  | i :: is, st => andThen (execAtWidth i st) (runAtWidth is)

end Sys2Proof.Machine
end

