-- ==== Sys2Proof/Safety.lean ====
section
/-!
DEFINITION. What counts as a safe run of PWT: a trace of valid words (30_encoding.md R68), and a consumer that follows the
protocol of 41_consumer_handshake.md R85. The protocol is not enforced by the hardware (R85, R156), so it is a monitor
outside the machine (93_implementation_defined.md U4): it watches the operations and the values returned. The invariants of that
monitor, alone and beside the reference consumer, stand at the end.
-/

namespace Sys2Proof.Machine

/-- An event is well-formed unless it is a trace word that spells no operation (R68). -/
def Event.wf : Event → Bool
  | .word w => wordValid w
  | .pin _ _ => true
  | .reset => true
  | .microsecond => true
  | .command _ => true

/-- Every event to come is well-formed: what is pending is a trace of PWT (R68). -/
def State.traceWf (st : State) : Bool := st.pending.all Event.wf

/-- Until the consumer's first operation, a width register whose flag is clear holds W_RESET: the 1500 is only replaced by
publishing a sample (R22, R131). -/
def State.unreadNeutral (st : State) : Prop :=
  st.cRdata = none → ∀ n, st.F n = false → st.W n = Config.wReset

/-- Two states agree on the ten registers (R21). -/
def State.sameRegs {TSW NCH : Nat} (a b : State TSW NCH) : Prop :=
  (∀ n, a.W n = b.W n ∧ a.S n = b.S n ∧ a.F n = b.F n) ∧ a.now = b.now

/-- Two states agree on the registers of one channel. -/
def State.sameChan {TSW NCH : Nat} (a b : State TSW NCH) (n : Channel NCH) : Prop :=
  a.W n = b.W n ∧ a.S n = b.S n ∧ a.F n = b.F n

/-- An operation that a run of channel n alone keeps: its own, TICK and RST (R36, T5 of 95_test_vectors.md). -/
def concerns (n : Channel) (i : Instr) : Bool :=
  match i.channel with
  | some m => decide (m = n)
  | none => true

/-- Where a consumer stands in a protocol round on one channel (R85). -/
inductive Phase where
  /-- No round is open. -/
  | waiting
  /-- Step 1 is done: RDF n returned 1. -/
  | sawReady
  /-- Step 2 is done: RDW n returned this width. -/
  | hasWidth (v : Word)
  deriving DecidableEq, Repr

/-- What an observer of one channel has written down: the consumer's place in the protocol, the widths published by accepted
FALL n and the widths delivered by finished rounds, each oldest first. -/
structure Ledger where
  phase : Phase
  published : List Word
  delivered : List Word
  deriving DecidableEq, Repr

/-- The ledger at the start of a run. -/
def Ledger.empty : Ledger := { phase := .waiting, published := [], delivered := [] }

/-- RDF n: a result of 1 opens a round; a result of 0 leaves the consumer waiting (R85 step 1). -/
def Ledger.onReadFlag (l : Ledger) (after : State) : Ledger :=
  match l.phase with
  | .waiting => if after.cRdata = some 1 then { l with phase := .sawReady } else l
  | .sawReady => l
  | .hasWidth _ => l

/-- RDW n: allowed only inside a round; its result is the sample (R85 step 2). -/
def Ledger.onReadWidth (l : Ledger) (after : State) : Option Ledger :=
  match l.phase with
  | .waiting => none
  | .sawReady => after.cRdata.map fun v => { l with phase := .hasWidth v }
  | .hasWidth _ => after.cRdata.map fun v => { l with phase := .hasWidth v }

/-- CLR n: allowed only after the width has been read; it ends the round and the width is delivered (R85 step 3, R87). -/
def Ledger.onClear (l : Ledger) : Option Ledger :=
  match l.phase with
  | .waiting => none
  | .sawReady => none
  | .hasWidth v => some { l with phase := .waiting, delivered := l.delivered ++ [v] }

/-- FALL n: a flag that goes from 0 to 1 publishes the width then in W[n] (R24, R76). -/
def Ledger.onFall (l : Ledger) (n : Channel) (before after : State) : Ledger :=
  if before.F n = false ∧ after.F n = true then { l with published := l.published ++ [after.W n] } else l

/-- The ledger of channel n after one operation, from the states before and after it; none if the consumer breaks the
protocol on channel n, or for RST, which R86 leaves out ("a run without a mid-run RST"). -/
def Ledger.next (l : Ledger) (n : Channel) (i : Instr) (before after : State) : Option Ledger :=
  match i with
  | .rise _ => some l
  | .fall m => some (if m = n then l.onFall n before after else l)
  | .rdf m => some (if m = n then l.onReadFlag after else l)
  | .rdw m => if m = n then l.onReadWidth after else some l
  | .clr m => if m = n then l.onClear else some l
  | .tick => some l
  | .rst => none

/-- A run watched on channel n: the state and the ledger at its end, or none if the protocol was broken on the way. -/
def watch (n : Channel) : List Instr → State → Ledger → Option (State × Ledger)
  | [], st, l => some (st, l)
  | i :: is, st, l =>
    match exec i st with
    | .next t =>
      match l.next n i st t with
      | some l' => watch n is t l'
      | none => none
    | .fault _ => none
    | .refused _ => none

/-- What a ledger of channel n and the state say of each other (R86): the widths published are those delivered and the one now
waiting; a consumer inside a round has its flag still set, and the width it holds is the one in W[n]. -/
structure Ledger.Sound (l : Ledger) (n : Channel) (st : State) : Prop where
  account : l.published = l.delivered ++ (if st.F n then [st.W n] else [])
  inRound : l.phase ≠ .waiting → st.F n = true
  holds : ∀ v, l.phase = .hasWidth v → v = st.W n

/-- Where a consumer at this position of the control loop stands in the round on channel n. -/
def LoopPos.phase (pos : LoopPos) (n : Channel) : Phase :=
  match pos with
  | .readFlag _ => .waiting
  | .readWidth m => if m = n then .sawReady else .waiting
  | .clear m p => if m = n then .hasWidth p else .waiting
  | .pause => .waiting

/-- What a ledger of channel n and the whole system say of each other: the ledger is sound, the loop's position is the
consumer's place in the protocol, and the log has one line for each width published, in order, but for the one that waits in
W[n] and has not been acted on yet. -/
structure Ledger.Tracks (l : Ledger) (n : Channel) (y : System) : Prop where
  sound : l.Sound n y.pwt
  place : l.phase = y.pos.phase n
  lines : l.published = y.env.logged n ++ (if y.pwt.F n && !y.actedOn n then [y.pwt.W n] else [])

end Sys2Proof.Machine
end

