-- ==== Sys2Proof/Certificates/Slice0/Obligations.lean ====
section
/-!
DEFINITION. The statements about PWT, and about the reference consumer that runs on it, for the provers. Each docstring names
the rule or the section of spec/ it formalises. "Entry <n>" is notes/assumptions/<n>.md. The fields cRdata and pending are the
model's own (entries 5 and 3): a clause that one of them is unchanged says that nothing is delivered to the consumer, and that
the environment's coming events are untouched.
-/

open Sys2Proof Sys2Proof.Machine

/-! ### The seven operations -/

/-- R75, whole: the words of RISE n, its agent, its one write S[n] <- NOW in every state, and its frame. -/
def Obligations.RiseRecordsTimestamp : Prop :=
  (decode 0x11 = .op (.rise .one) ∧ decode 0x12 = .op (.rise .two) ∧ decode 0x13 = .op (.rise .three)) ∧
  ∀ (n : Channel) (s : State), (Instr.rise n).agent = .edge n ∧
    ∃ t, exec (.rise n) s = .next t ∧ t.S n = s.now ∧ t.W n = s.W n ∧ t.F n = s.F n ∧
      (∀ m, m ≠ n → t.sameChan s m) ∧ t.now = s.now ∧ t.cRdata = s.cRdata ∧ t.pending = s.pending

/-- The accepted branch of FALL n (40_producer_edge_capture.md section 3, first row of the table of outcomes): with a start
pending and the buffer free it publishes NOW − S[n] modulo 2^32, clears the start and sets the flag; and its frame. The
modulo difference at 32 bits is the spec's decision D2. -/
def Obligations.AcceptedFallPublishesDelta : Prop :=
  (decode 0x21 = .op (.fall .one) ∧ decode 0x22 = .op (.fall .two) ∧ decode 0x23 = .op (.fall .three)) ∧
  ∀ (n : Channel) (s : State), s.S n ≠ 0 → s.F n = false →
    ∃ t, exec (.fall n) s = .next t ∧
      (t.W n).toNat = ((s.now.toNat : Int) - (s.S n).toNat) % 4294967296 ∧ t.S n = 0 ∧ t.F n = true ∧
      (∀ m, m ≠ n → t.sameChan s m) ∧ t.now = s.now ∧ t.cRdata = s.cRdata ∧ t.pending = s.pending

/-- R116: the guard of FALL n is the conjunction S[n] ≠ 0 and F[n] = 0, on the state before; if either part fails, or both,
the operation is ignored, and otherwise it is not. Ignored is writing nothing at all; that S[n] too is kept on overrun (R76,
R109, third row of R159) rests on the spec's decision D27, its own inference: entry 12 (DEDUCED). -/
def Obligations.FallIgnoredUnlessBothGuards : Prop :=
  ∀ (n : Channel) (s : State),
    (s.S n = 0 ∨ s.F n = true → exec (.fall n) s = .next s) ∧
    (¬(s.S n = 0 ∨ s.F n = true) → ∃ t, exec (.fall n) s = .next t ∧ t ≠ s)

/-- R80, whole: the words of RDF n, its agent, the flag zero-extended on c_rdata, and no register changed. -/
def Obligations.ReadFlagReturnsZeroOrOne : Prop :=
  (decode 0x41 = .op (.rdf .one) ∧ decode 0x42 = .op (.rdf .two) ∧ decode 0x43 = .op (.rdf .three)) ∧
  ∀ (n : Channel) (s : State), (Instr.rdf n).agent = .consumer ∧
    ∃ t, exec (.rdf n) s = .next t ∧ t.cRdata = some (if s.F n then 1 else 0) ∧ t.sameRegs s ∧ t.pending = s.pending

/-- R81, whole: the words of RDW n, its agent, all bits of W[n] on c_rdata in every state, and no register changed. Outside
the ownership window this is the result the atomic model gives (corner case b of R81, entry 6). -/
def Obligations.ReadWidthReturnsRegister : Prop :=
  (decode 0x51 = .op (.rdw .one) ∧ decode 0x52 = .op (.rdw .two) ∧ decode 0x53 = .op (.rdw .three)) ∧
  ∀ (n : Channel) (s : State), (Instr.rdw n).agent = .consumer ∧
    ∃ t, exec (.rdw n) s = .next t ∧ t.cRdata = some (s.W n) ∧ t.sameRegs s ∧ t.pending = s.pending

/-- R82, whole: the words of CLR n, its agent, F[n] cleared whatever it was, 0 on c_rdata, and its frame. -/
def Obligations.ClearReleasesBuffer : Prop :=
  (decode 0x61 = .op (.clr .one) ∧ decode 0x62 = .op (.clr .two) ∧ decode 0x63 = .op (.clr .three)) ∧
  ∀ (n : Channel) (s : State), (Instr.clr n).agent = .consumer ∧
    ∃ t, exec (.clr n) s = .next t ∧ t.F n = false ∧ t.cRdata = some 0 ∧ t.W n = s.W n ∧ t.S n = s.S n ∧
      (∀ m, m ≠ n → t.sameChan s m) ∧ t.now = s.now ∧ t.pending = s.pending

/-- R89, whole: the word of TICK, its agent, NOW + 1 modulo 2^32, and no channel register touched. -/
def Obligations.TickAddsOneMicrosecond : Prop :=
  decode 0x80 = .op .tick ∧ (Instr.tick : Instr).agent = .timebase ∧
  ∀ s : State, ∃ t, exec .tick s = .next t ∧ t.now.toNat = (s.now.toNat + 1) % 2 ^ 32 ∧
    (∀ n, t.sameChan s n) ∧ t.cRdata = s.cRdata ∧ t.pending = s.pending

/-- RST (42_timebase_and_reset.md, the reset operation): every channel at (1500, 0, 0), NOW kept. The values of S[n] and F[n]
and the treatment of NOW are the spec's decisions D4 and D19. -/
def Obligations.ResetOperationClearsChannels : Prop :=
  decode 0xF0 = .op .rst ∧ (Instr.rst : Instr).agent = .host ∧
  ∀ s : State, ∃ t, exec .rst s = .next t ∧ (∀ n, t.W n = 1500 ∧ t.S n = 0 ∧ t.F n = false) ∧
    t.now = s.now ∧ t.cRdata = s.cRdata ∧ t.pending = s.pending

/-! ### Reset -/

/-- R10: every W[n] is 1500 after reset, in the launch state and after RST. -/
def Obligations.NeutralWidthAfterReset : Prop :=
  ∀ n : Channel, State.reset.W n = 1500 ∧ ∀ s : State, ∃ t, exec .rst s = .next t ∧ t.W n = 1500

/-- The launch state (00_scope.md section 4): (1500, 0, 0) on every channel and NOW at the open parameter NOW_RESET; for every
value of it, the launch state is the state RST produces from any state with that NOW, as far as registers go. S = 0 and F = 0
are the spec's decision D4, NOW_RESET is entry 1; that nothing is pending or delivered is the model's (entries 3, 5). -/
def Obligations.LaunchStateRegisters : Prop :=
  (∀ n : Channel, State.reset.W n = 1500 ∧ State.reset.S n = 0 ∧ State.reset.F n = false) ∧
  State.reset.now = Config.nowReset ∧ State.reset.cRdata = none ∧ State.reset.pending = [] ∧
  ∀ s : State, ∃ t, exec .rst s = .next t ∧ t.sameRegs (State.launch s.now)

/-! ### Encoding -/

/-- R62: a word is a valid operation if and only if it is one of the 17 words of the table. -/
def Obligations.ValidWordsAreTheSeventeen : Prop :=
  ∀ w : BitVec 8, (∃ i, decode w = .op i) ↔
    w ∈ ([0x11, 0x12, 0x13, 0x21, 0x22, 0x23, 0x41, 0x42, 0x43, 0x51, 0x52, 0x53, 0x61, 0x62, 0x63, 0x80, 0xF0] :
      List (BitVec 8))

/-- R63: a word selects a row if (w AND mask) = match and the row's constraint holds; no two rows match one word, and the
decoder reads exactly the operation of the row selected. -/
def Obligations.RowsSelectWhatIsDecoded : Prop :=
  ∀ w : BitVec 8, (opcodeTable.filter fun r => r.selects w).map Row.mnemonic =
    (match decode w with
     | .op i => [mnemonicOf i]
     | .invalid _ => [])

/-- R65, R66, R67: a reserved opcode, a non-zero field z, a channel operation with n = 00, and TICK or RST with n ≠ 00 make a
word invalid. -/
def Obligations.ReservedWordsAreInvalid : Prop :=
  (∀ w : BitVec 8, fieldOp w ∈ ([0x0, 0x3, 0x7, 0x9, 0xA, 0xB, 0xC, 0xD, 0xE] : List (BitVec 4)) → ∀ i, decode w ≠ .op i) ∧
  (∀ w : BitVec 8, fieldZ w ≠ 0 → ∀ i, decode w ≠ .op i) ∧
  (∀ w ∈ ([0x10, 0x20, 0x40, 0x50, 0x60] : List (BitVec 8)), decode w = .invalid .noChannel) ∧
  (∀ w ∈ ([0x81, 0x82, 0x83, 0xF1, 0xF2, 0xF3] : List (BitVec 8)), decode w = .invalid .strayChannel) ∧
  decode 0x00 = .invalid .reservedOpcode

/-- R70: the two high bits of a valid word name the domain that may perform it. -/
def Obligations.ValidWordNamesItsDomain : Prop :=
  ∀ (w : BitVec 8) (i : Instr), decode w = .op i → wordDomain w = i.agent.domain

/-- Decoding and encoding are inverse (30_encoding.md section 3; check T6 of 95_test_vectors.md): a word decodes to an
operation exactly when it is that operation's word. -/
def Obligations.DecodeInvertsEncode : Prop :=
  ∀ (w : BitVec 8) (i : Instr), decode w = .op i ↔ encode i = w

/-- The same for whole traces, of any length (30_encoding.md section 6): a sequence of words spells a list of operations
exactly when it is that list's encoding. -/
def Obligations.TraceDecodeInvertsEncode : Prop :=
  ∀ (ws : List (BitVec 8)) (is : List Instr), decodeTrace ws = some is ↔ encodeTrace is = ws

/-! ### Steps and ports -/

/-- A step runs the decoded operation: with a valid word next, step is exec of what it decodes to, on the state from which
that word has been taken off (00_scope.md section 4; the list of events to come is the model's, entry 3). -/
def Obligations.StepRunsDecodedWord : Prop :=
  ∀ (s : State) (w : BitVec 8) (es : List Event) (i : Instr), s.pending = .word w :: es → decode w = .op i →
    step s = exec i (s.withPending es)

/-- The pins, the reset input and the timebase (30_encoding.md section 5): a change of pin[n] to 1 is RISE n, to 0 FALL n, an
assertion of rst is RST, and a microsecond is TICK. -/
def Obligations.PortEventsAreOperations : Prop :=
  ∀ (s : State) (es : List Event),
    (∀ n, s.pending = .pin n true :: es → step s = exec (.rise n) (s.withPending es)) ∧
    (∀ n, s.pending = .pin n false :: es → step s = exec (.fall n) (s.withPending es)) ∧
    (s.pending = .reset :: es → step s = exec .rst (s.withPending es)) ∧
    (s.pending = .microsecond :: es → step s = exec .tick (s.withPending es))

/-- R153: the consumer port performs RDF, RDW and CLR, with the result on c_rdata in the same step, and nothing else; for any
other word, valid or not, no register changes and c_rdata is 0. -/
def Obligations.ConsumerPortAcceptsOnlyConsumerWords : Prop :=
  ∀ (s : State) (w : BitVec 8) (es : List Event), s.pending = .command w :: es →
    (∀ n, decode w = .op (.rdf n) ∨ decode w = .op (.rdw n) ∨ decode w = .op (.clr n) →
      ∃ i, decode w = .op i ∧ step s = exec i (s.withPending es)) ∧
    ((∀ n, decode w ≠ .op (.rdf n) ∧ decode w ≠ .op (.rdw n) ∧ decode w ≠ .op (.clr n)) →
      ∃ t, step s = .next t ∧ t.sameRegs s ∧ t.cRdata = some 0 ∧ t.pending = es)

/-- R68: an invalid word is refused at decode in a trace, and does not trap; on the consumer port it is ignored, no register
changes and c_rdata is 0, and so is any valid word whose domain is not the consumer's. -/
def Obligations.InvalidWordRefusedOrIgnored : Prop :=
  ∀ (s : State) (w : BitVec 8) (es : List Event),
    (∀ why, s.pending = .word w :: es → decode w = .invalid why → step s = .refused (.invalidWord w why)) ∧
    (∀ why, s.pending = .command w :: es → decode w = .invalid why →
      ∃ t, step s = .next t ∧ t.sameRegs s ∧ t.cRdata = some 0 ∧ t.pending = es) ∧
    (s.pending = .command w :: es → (∃ i, decode w = .op i) → wordDomain w ≠ .consumer →
      ∃ t, step s = .next t ∧ t.sameRegs s ∧ t.cRdata = some 0 ∧ t.pending = es)

/-- With no event to come nothing happens: the model's choice, entry 4. -/
def Obligations.IdleStepChangesNothing : Prop :=
  ∀ s : State, s.pending = [] → step s = .next s

/-- R107: every valid operation word executed on every state has a defined next state, and no step of any kind ends in a
fault. -/
def Obligations.ValidWordsAlwaysComplete : Prop :=
  (∀ (s : State) (w : BitVec 8) (i : Instr) (es : List Event), decode w = .op i → s.pending = .word w :: es →
    ∃ t, step s = .next t) ∧
  ∀ (s : State) (f : Fault), step s ≠ .fault f

/-- A trace of valid words is never refused (60_exceptions.md sections 1 and 8): from a state whose coming events are
well-formed, any number of steps goes on, and what is left to come stays well-formed. The events to come are finitely many;
the steps after the last of them are the idle step, which is the model's choice, entry 4 (the spec has no step without an
operation). -/
def Obligations.WellFormedRunsNeverStop : Prop :=
  ∀ (s : State) (k : Nat), s.traceWf = true →
    ∃ t : State, Host.Core.run Sys2Proof.core k s = .next t ∧ t.traceWf = true

/-- The machine runs an encoded trace as the operations it spells (00_scope.md section 4, 30_encoding.md section 6): stepping
once per word of encodeTrace is gives the state of applying the operations one after another, whatever is to come after. -/
def Obligations.SteppingEncodedTraceRunsOperations : Prop :=
  ∀ (is : List Instr) (s : State) (es : List Event),
    (Host.Core.run Sys2Proof.core is.length (s.withPending ((encodeTrace is).map Event.word ++ es)) :
      Host.Outcome State Fault Refusal) = runOps is (s.withPending es)

/-! ### What may write what -/

/-- R30: S[n] is written only by RISE n, by an accepted FALL n and by RST. -/
def Obligations.StartWrittenOnlyByProducer : Prop :=
  ∀ (i : Instr) (s t : State) (n : Channel), exec i s = .next t → t.S n ≠ s.S n →
    i = .rise n ∨ (i = .fall n ∧ s.S n ≠ 0 ∧ s.F n = false) ∨ i = .rst

/-- R31: F[n] goes from 0 to 1 only by an accepted FALL n, and from 1 to 0 only by CLR n or RST; RST forces it to 0. -/
def Obligations.FlagTransitionsHaveOneCause : Prop :=
  ∀ (i : Instr) (s t : State) (n : Channel), exec i s = .next t →
    (s.F n = false → t.F n = true → i = .fall n ∧ s.S n ≠ 0) ∧
    (s.F n = true → t.F n = false → i = .clr n ∨ i = .rst) ∧
    (i = .rst → t.F n = false)

/-- R32, the data-stability guard: between resets W[n] is written only by an operation that finds F[n] = 0, and from a state
with F[n] = 1, as long as no CLR n and no RST comes, W[n] is constant over any run. -/
def Obligations.WidthStableWhileFlagSet : Prop :=
  (∀ (i : Instr) (s t : State) (n : Channel), exec i s = .next t → t.W n ≠ s.W n → i ≠ .rst →
    i = .fall n ∧ s.F n = false) ∧
  ∀ (n : Channel) (is : List Instr) (s t : State), s.F n = true → .clr n ∉ is → .rst ∉ is →
    runOps is s = .next t → t.W n = s.W n ∧ t.F n = true

/-- The access table (20_memory.md section 1), writes: which operations write each register, and no other does. -/
def Obligations.OnlyListedOperationsWrite : Prop :=
  ∀ (i : Instr) (s t : State) (n : Channel), exec i s = .next t →
    (i ≠ .fall n → i ≠ .rst → t.W n = s.W n) ∧
    (i ≠ .rise n → i ≠ .fall n → i ≠ .rst → t.S n = s.S n) ∧
    (i ≠ .fall n → i ≠ .clr n → i ≠ .rst → t.F n = s.F n) ∧
    (i ≠ .tick → t.now = s.now) ∧
    (i.agent ≠ .consumer → t.cRdata = s.cRdata)

/-- The access table (20_memory.md section 1), reads: what an operation writes or returns depends on the registers listed as
read for it, and on nothing else of the state; so over any run what becomes of a channel and of NOW depends on that channel and
on NOW alone. -/
def Obligations.ResultsDependOnlyOnListedReads : Prop :=
  (∀ (n : Channel) (is : List Instr) (a b : State), a.sameChan b n → a.now = b.now →
    ∃ c d, runOps is a = .next c ∧ runOps is b = .next d ∧ c.sameChan d n ∧ c.now = d.now) ∧
  ∀ (i : Instr) (a b : State), ∃ c d, exec i a = .next c ∧ exec i b = .next d ∧
    (∀ n, i = .rise n → a.now = b.now → c.S n = d.S n) ∧
    (∀ n, i = .fall n → a.S n = b.S n → a.F n = b.F n → a.now = b.now →
      c.S n = d.S n ∧ c.F n = d.F n ∧ (c.W n = d.W n ∨ (c.W n = a.W n ∧ d.W n = b.W n))) ∧
    (∀ n, i = .rdf n → a.F n = b.F n → c.cRdata = d.cRdata) ∧
    (∀ n, i = .rdw n → a.W n = b.W n → c.cRdata = d.cRdata) ∧
    (∀ n, i = .clr n → c.F n = d.F n ∧ c.cRdata = d.cRdata) ∧
    (i = .tick → a.now = b.now → c.now = d.now) ∧
    (i = .rst → ∀ n, c.sameChan d n)

/-- The access domains (60_exceptions.md section 4): an edge-capture unit leaves NOW and every other channel alone, writes
W[n] only with F[n] = 0 and moves F[n] only from 0 to 1; the consumer writes flags only, from 1 to 0 only; the timebase writes
NOW only; the host writes channel registers only. -/
def Obligations.AgentsKeepToTheirDomain : Prop :=
  ∀ (i : Instr) (s t : State), exec i s = .next t →
    (∀ n, i.agent = .edge n → t.now = s.now ∧ t.cRdata = s.cRdata ∧ (∀ m, m ≠ n → t.sameChan s m) ∧
      (t.W n ≠ s.W n → s.F n = false) ∧ (s.F n = true → t.F n = true)) ∧
    (i.agent = .consumer → t.now = s.now ∧
      ∀ m, t.W m = s.W m ∧ t.S m = s.S m ∧ (s.F m = false → t.F m = false)) ∧
    (i.agent = .timebase → t.cRdata = s.cRdata ∧ ∀ m, t.sameChan s m) ∧
    (i.agent = .host → t.now = s.now ∧ t.cRdata = s.cRdata)

/-- R36: an operation with channel n neither writes nor reads the registers of another channel; TICK touches no channel
register; operations on different channels commute on the registers, and so do TICK and a consumer operation. -/
def Obligations.ChannelsAreIndependent : Prop :=
  (∀ (i : Instr) (n m : Channel) (s t : State), i.channel = some n → m ≠ n → exec i s = .next t → t.sameChan s m) ∧
  (∀ (i : Instr) (n : Channel) (a b : State), i.channel = some n → a.sameChan b n → a.now = b.now →
    ∃ c d, exec i a = .next c ∧ exec i b = .next d ∧ c.sameChan d n ∧ (i.agent = .consumer → c.cRdata = d.cRdata)) ∧
  (∀ (s t : State) (m : Channel), exec .tick s = .next t → t.sameChan s m) ∧
  (∀ (i j : Instr) (n m : Channel) (s : State), i.channel = some n → j.channel = some m → n ≠ m →
    ∃ t u, runOps [i, j] s = .next t ∧ runOps [j, i] s = .next u ∧ t.sameRegs u) ∧
  (∀ (i : Instr) (s : State), i.agent = .consumer → runOps [i, .tick] s = runOps [.tick, i] s) ∧
  (∀ (i : Instr) (s t : State) (n m : Channel), exec i s = .next t → n ≠ m → ¬ t.sameChan s n → ¬ t.sameChan s m → i = .rst)

/-- R47: reads change no register and, repeated any number of times, return the same value; CLR n is idempotent, a second one
with no accepted FALL n between them changing no register; RISE n is idempotent when NOW has not changed and not when it has;
TICK is not idempotent. -/
def Obligations.ReadsRepeatAndClearIsIdempotent : Prop :=
  ∀ (n : Channel) (s : State),
    (∀ i k, i = .rdf n ∨ i = .rdw n → ∃ t, exec i s = .next t ∧ t.sameRegs s ∧
      runOps (List.replicate (k + 1) i) s = .next t) ∧
    (∀ is : List Instr,
      (∀ js ks a, is = js ++ .fall n :: ks → runOps (.clr n :: js) s = .next a → a.S n = 0 ∨ a.F n = true) →
      ∃ t u, runOps (.clr n :: is) s = .next t ∧ exec (.clr n) t = .next u ∧ u.sameRegs t) ∧
    (∃ t, exec (.clr n) s = .next t ∧ exec (.clr n) t = .next t) ∧
    (∃ t, exec (.rise n) s = .next t ∧ exec (.rise n) t = .next t) ∧
    (∃ t u, exec (.rise n) s = .next t ∧ runOps [.rise n, .tick, .rise n] s = .next u ∧ u.S n ≠ t.S n) ∧
    (∃ t u, exec .tick s = .next t ∧ exec .tick t = .next u ∧ u ≠ t)

/-- A second FALL n right after a FALL n changes nothing (95_test_vectors.md PV4; corner case g of FALL). -/
def Obligations.SecondFallIsIgnored : Prop :=
  ∀ (n : Channel) (s : State), runOps [.fall n, .fall n] s = runOps [.fall n] s

/-! ### Runs -/

/-- R53, the stability window with the reads in it: from an accepted FALL n until the next CLR n, with no RST, every RDF n
returns 1 and every RDW n returns exactly the width that FALL n wrote, whatever operations come between. -/
def Obligations.WindowDeliversPublishedWidth : Prop :=
  ∀ (n : Channel) (s a : State) (is : List Instr), s.S n ≠ 0 → s.F n = false → exec (.fall n) s = .next a →
    .clr n ∉ is → .rst ∉ is →
    ∃ t u v, runOps is a = .next t ∧ exec (.rdf n) t = .next u ∧ u.cRdata = some 1 ∧
      exec (.rdw n) t = .next v ∧ v.cRdata = some (s.now - s.S n)

/-- The elapsed-time law (42_timebase_and_reset.md, last two paragraphs): over any run NOW advances by the number of TICKs in
it, modulo 2^32; while it does not wrap it advances by exactly that number, so it never decreases. -/
def Obligations.TimebaseCountsTicks : Prop :=
  ∀ (is : List Instr) (s : State), ∃ t, runOps is s = .next t ∧
    t.now - s.now = BitVec.ofNat 32 (is.count .tick) ∧
    (s.now.toNat + is.count .tick < 2 ^ 32 → t.now.toNat = s.now.toNat + is.count .tick)

/-- The measured interval (40_producer_edge_capture.md section 4): if a FALL n is accepted, the width it publishes is the number
of TICKs since the last RISE n before it, modulo 2^32, whatever other operations, ignored falling edges included, came
between. -/
def Obligations.PublishedWidthCountsTicksSinceRise : Prop :=
  ∀ (n : Channel) (is : List Instr) (s a t : State), .rise n ∉ is → .rst ∉ is →
    runOps (.rise n :: is) s = .next a → a.S n ≠ 0 → a.F n = false → exec (.fall n) a = .next t →
    t.W n = BitVec.ofNat 32 (is.count .tick) ∧ t.F n = true

/-- One whole pulse (95_test_vectors.md PV5): from any state with the buffer free and NOW ≠ 0, a rising edge, d microseconds
and a falling edge publish the width d, for every d below 2^32, across a wrap of NOW too. -/
def Obligations.WholePulseMeasuresItsLength : Prop :=
  ∀ (n : Channel) (s : State) (d : Nat), s.F n = false → s.now ≠ 0 → d < 2 ^ 32 →
    ∃ t, runOps (.rise n :: (advOps d ++ [.fall n])) s = .next t ∧ (t.W n).toNat = d ∧ t.S n = 0 ∧ t.F n = true

/-- R91: ADV d is d TICKs, its encoding d bytes of 0x80, and it adds d to NOW modulo 2^32 and changes nothing else. -/
def Obligations.AdvanceAddsItsCount : Prop :=
  ∀ d : Nat, encodeTrace (advOps d) = List.replicate d 0x80 ∧
    ∀ s : State, ∃ t, runOps (advOps d) s = .next t ∧ t.now.toNat = (s.now.toNat + d) % 2 ^ 32 ∧
      (∀ n, t.sameChan s n) ∧ t.cRdata = s.cRdata ∧ t.pending = s.pending

/-- Timestamp 0 collides with the sentinel (70_reset_and_hazards.md, hazard "timestamp 0"): a RISE n at NOW = 0 leaves no start
pending, so the FALL n of that pulse, any number of microseconds later, is ignored and the pulse is lost. -/
def Obligations.PulseStampedZeroIsLost : Prop :=
  ∀ (n : Channel) (s : State) (d : Nat), s.now = 0 →
    ∃ t, runOps (.rise n :: (advOps d ++ [.fall n])) s = .next t ∧ t.S n = 0 ∧ t.W n = s.W n ∧ t.F n = s.F n

/-- The start survives a dropped falling edge (70_reset_and_hazards.md, that hazard; decision D27): after an overrun, a CLR n
and another FALL n with no RISE n between publish the time since the OLD rising edge. That the dropped edge keeps S[n] is D27,
the spec's own inference: entry 12 (DEDUCED). -/
def Obligations.DroppedFallLeavesStartPending : Prop :=
  ∀ (n : Channel) (s : State) (d : Nat), s.S n ≠ 0 → s.F n = true →
    ∃ t, runOps (.fall n :: .clr n :: (advOps d ++ [.fall n])) s = .next t ∧
      t.W n = s.now + BitVec.ofNat 32 d - s.S n ∧ t.F n = true ∧ t.S n = 0

/-- A CLR n and a FALL n of the same instant do not commute (95_test_vectors.md V37): in one order the new pulse is published,
in the other it is dropped and its start left pending. That the dropped FALL n leaves S[n] as it was is decision D27, the
spec's own inference: entry 12 (DEDUCED). -/
def Obligations.ClearAndFallDoNotCommute : Prop :=
  ∀ (n : Channel) (s : State), s.S n ≠ 0 → s.F n = true →
    (∃ t, runOps [.clr n, .fall n] s = .next t ∧ t.W n = s.now - s.S n ∧ t.S n = 0 ∧ t.F n = true) ∧
    (∃ u, runOps [.fall n, .clr n] s = .next u ∧ u.W n = s.W n ∧ u.S n = s.S n ∧ u.F n = false)

/-- Clearing before reading (70_reset_and_hazards.md, hazard "width before clear"; program P7): with a start pending, an accepted
FALL n between the CLR n and the late RDW n, d microseconds after the one and e before the other, makes that RDW n return the
new width, and the next round delivers the same width again. The late RDW n reads outside the ownership window: that it returns W[n] is the choice of the atomic model, entry 6
(DESIGN CHOICE; R84 and U3 allow any value there). -/
def Obligations.ClearBeforeReadDuplicates : Prop :=
  ∀ (n : Channel) (s : State) (d e : Nat), s.S n ≠ 0 → s.F n = true →
    ∃ t a, runOps (.rdf n :: .clr n :: (advOps d ++ .fall n :: (advOps e ++ [.rdw n]))) s = .next t ∧
      t.cRdata = some (s.now + BitVec.ofNat 32 d - s.S n) ∧
      take n t = .next a ∧ a.delivered = [(n, s.now + BitVec.ofNat 32 d - s.S n)]

/-- Capture armed for one direction only never publishes (70_reset_and_hazards.md section 2): with no FALL n the flag stays
clear; with no RISE n and no start pending it stays clear too, and W[n] is written by nothing but RST. -/
def Obligations.OneEdgeDirectionNeverPublishes : Prop :=
  ∀ (n : Channel) (is : List Instr) (s : State), s.F n = false →
    ∃ t, runOps is s = .next t ∧
      (.fall n ∉ is → t.F n = false) ∧
      (.rise n ∉ is → s.S n = 0 → t.F n = false ∧ (t.W n = s.W n ∨ t.W n = 1500))

/-- An ignored FALL n may be deleted from any trace (95_test_vectors.md T4): no later state and no returned value changes. Where
it is ignored for overrun, that it keeps S[n] is decision D27, the spec's own inference: entry 12 (DEDUCED). -/
def Obligations.IgnoredFallsMayBeDeleted : Prop :=
  ∀ (n : Channel) (is js : List Instr) (s a : State), runOps is s = .next a → (a.S n = 0 ∨ a.F n = true) →
    runOps (is ++ .fall n :: js) s = runOps (is ++ js) s

/-- Channel n sees only its own operations, the timebase and reset (10_state.md section 8; 95_test_vectors.md T5): deleting
every operation of the other channels from a trace changes nothing of channel n or of NOW. -/
def Obligations.OtherChannelsAreInvisible : Prop :=
  ∀ (n : Channel) (is : List Instr) (s : State),
    ∃ t u, runOps is s = .next t ∧ runOps (is.filter (concerns n)) s = .next u ∧ t.sameChan u n ∧ t.now = u.now

/-- Exactly-once delivery (41_consumer_handshake.md section 2; 95_test_vectors.md T3). The invariant: the widths published by
accepted FALL n are the widths delivered, in order, and at most one more, which is the one now waiting in W[n]; inside a round
the flag is set, and the width read is that of W[n]. Every operation that keeps the protocol on channel n keeps it, from every
state and every ledger; the empty ledger and every launch state meet it; so every run from a launch state that keeps the
protocol, with no RST, ends in it. -/
def Obligations.EverySampleDeliveredExactlyOnce : Prop :=
  (∀ (n : Channel) (i : Instr) (s t : State) (l l' : Ledger), l.Sound n s → exec i s = .next t →
    l.next n i s t = some l' → l'.Sound n t) ∧
  (∀ (n : Channel) (nowReset : Word), Ledger.empty.Sound n (State.launch nowReset)) ∧
  ∀ (n : Channel) (nowReset : Word) (is : List Instr) (t : State) (l : Ledger),
    watch n is (State.launch nowReset) Ledger.empty = some (t, l) →
    l.published = l.delivered ++ (if t.F n then [t.W n] else [])

/-- A published sample is there to be taken, and a consumer that waits can always go on within the protocol
(41_consumer_handshake.md section 2): whatever a protocol-following run has done so far, if channel n's flag is set and no round
is open, the round RDF n, RDW n, CLR n is allowed and delivers the width in W[n]. -/
def Obligations.WaitingSampleCanAlwaysBeTaken : Prop :=
  ∀ (n : Channel) (s : State) (l : Ledger), s.F n = true → l.phase = .waiting →
    ∃ t, watch n [.rdf n, .rdw n, .clr n] s l =
      some (t, { phase := .waiting, published := l.published, delivered := l.delivered ++ [s.W n] }) ∧ t.F n = false

/-! ### The pseudo-operations of the consumer -/

/-- R87: TAKE n delivers W[n] and leaves F[n] = 0 if the flag was set, and delivers nothing if it was not; W, S, NOW and the
other channels are unchanged; and it is the three operations, or the one, of its expansion. -/
def Obligations.TakeDeliversAndClears : Prop :=
  ∀ (n : Channel) (s : State), ∃ a, take n s = .next a ∧
    a.delivered = (if s.F n then [(n, s.W n)] else []) ∧ a.state.F n = false ∧ a.state.W n = s.W n ∧ a.state.S n = s.S n ∧
    (∀ m, m ≠ n → a.state.sameChan s m) ∧ a.state.now = s.now ∧ runOps (takeOps n (s.F n)) s = .next a.state

/-- R88: POLL takes the channels in the order 1, 2, 3; it delivers exactly the waiting widths, in that order, and leaves every
flag clear; the registers it leaves do not depend on the order of the three TAKEs; it is 3 to 9 words long. -/
def Obligations.PollTakesEveryWaitingSample : Prop :=
  ∀ s : State, ∃ a, poll s = .next a ∧
    a.delivered = (([.one, .two, .three] : List Channel).filter s.F).map (fun n => (n, s.W n)) ∧
    (∀ n, a.state.F n = false ∧ a.state.W n = s.W n ∧ a.state.S n = s.S n) ∧ a.state.now = s.now ∧
    (∀ ns : List Channel, ns.Perm Channel.all → ∃ b, takeEach ns s = .next b ∧ b.state.sameRegs a.state) ∧
    3 ≤ (Channel.all.map fun n => (takeOps n (s.F n)).length).sum ∧
    (Channel.all.map fun n => (takeOps n (s.F n)).length).sum ≤ 9

/-! ### Invariants of every step -/

/-- The state after reset meets the invariant, and so does the launch state for every NOW_RESET. -/
def Obligations.LaunchStateMeetsInvariant : Prop :=
  State.reset.traceWf = true ∧ State.reset.unreadNeutral ∧
  ∀ v : Word, (State.launch v).traceWf = true ∧ (State.launch v).unreadNeutral

/-- An invariant that every step keeps (10_state.md section 2 and 70_reset_and_hazards.md section 1): what is to come stays a
well-formed trace, and until the consumer's first operation every width register whose flag is clear holds W_RESET, since
only publishing a sample replaces the 1500. The flag cRdata = none, "no consumer operation yet", is the model's, entry 5. -/
def Obligations.StepKeepsTraceAndNeutralWidths : Prop :=
  ∀ s t : State, s.traceWf = true → s.unreadNeutral → step s = .next t → t.traceWf = true ∧ t.unreadNeutral

/-! ### The reference consumer (43_consumer_environment.md, not part of PWT) -/

/-- R96: LED1 is ON iff p > 1600, strictly; OFF is duty 0, ON the open value LED_ON. -/
def Obligations.SwitchIsStrictThreshold : Prop :=
  ∀ p : Word, (switchOn p = true ↔ 1600 < p.toNat) ∧
    ∀ v : Env, (v.map .one p).led1 = (if 1600 < p.toNat then Config.ledOn else 0) ∧
      v.map .one p = { v with led1 := (v.map .one p).led1 }

/-- The dimmer map (43_consumer_environment.md section 2, 95_test_vectors.md S1 and EV1), for every rounding mode: in range for
every width, 0 up to 1000, 255 from 2000, and between them within one unit of the exact quotient, below it for truncation
and within half a unit for the nearest modes. The three modes are the candidates of EV1 (entry 11). -/
def Obligations.DimmerScalesAndClamps : Prop :=
  ∀ (mode : RoundMode) (p : Word), 0 ≤ dimmer mode p ∧ dimmer mode p ≤ 255 ∧
    (p.toNat ≤ 1000 → dimmer mode p = 0) ∧ (2000 ≤ p.toNat → dimmer mode p = 255) ∧
    (1000 ≤ p.toNat → p.toNat ≤ 2000 →
      (mode = .truncate → 1000 * dimmer mode p ≤ ((p.toNat : Int) - 1000) * 255 ∧
        ((p.toNat : Int) - 1000) * 255 < 1000 * dimmer mode p + 1000) ∧
      (mode ≠ .truncate → 2 * (1000 * dimmer mode p - ((p.toNat : Int) - 1000) * 255) ≤ 1000 ∧
        -1000 ≤ 2 * (1000 * dimmer mode p - ((p.toNat : Int) - 1000) * 255))) ∧
    ((dimmerDuty mode p).val : Int) = dimmer mode p

/-- R98: the trigger advances the cursor by one, modulo 6, and applies the colour of the NEW index iff p > 1700, strictly, on
every sample; for p ≤ 1700 nothing is written. -/
def Obligations.TriggerAdvancesAboveThreshold : Prop :=
  ∀ (v : Env) (p : Word),
    (p.toNat ≤ 1700 → v.trigger p = v) ∧
    (1700 < p.toNat → (v.trigger p).idx.val = (v.idx.val + 1) % 6 ∧
      ((v.trigger p).red, (v.trigger p).green, (v.trigger p).blue) = colour (v.trigger p).idx ∧
      (v.trigger p).led1 = v.led1 ∧ (v.trigger p).led2 = v.led2 ∧ (v.trigger p).log = v.log)

/-- R100: the cursor starts at index 0 and only the trigger of channel 3 moves it; six consecutive triggers are the identity on
it, and from index 0 they apply green, blue, yellow, cyan, magenta and red in turn. -/
def Obligations.SixTriggersReturnToStart : Prop :=
  Env.reset.idx = 0 ∧
  (∀ (v : Env) (n : Channel) (p : Word), (v.process n p).idx ≠ v.idx → n = .three ∧ triggers p = true) ∧
  ∀ (v : Env) (p1 p2 p3 p4 p5 p6 : Word), (∀ p ∈ [p1, p2, p3, p4, p5, p6], 1700 < p.toNat) →
    ((((((v.trigger p1).trigger p2).trigger p3).trigger p4).trigger p5).trigger p6).idx = v.idx ∧
    (v.idx = 0 →
      [v.trigger p1, (v.trigger p1).trigger p2, ((v.trigger p1).trigger p2).trigger p3,
        (((v.trigger p1).trigger p2).trigger p3).trigger p4,
        ((((v.trigger p1).trigger p2).trigger p3).trigger p4).trigger p5,
        (((((v.trigger p1).trigger p2).trigger p3).trigger p4).trigger p5).trigger p6].map
          (fun e => (e.red, e.green, e.blue)) =
        [(0, 255, 0), (0, 0, 255), (255, 255, 0), (0, 255, 255), (255, 0, 255), (255, 0, 0)])

/-- One cycle of the control loop (43_consumer_environment.md section 1): it completes, it runs the mapper of each channel that
had a sample waiting, on that channel's width, in the order 1, 2, 3, with one log line each, and a channel without one keeps its
outputs; R, G, B, the outputs of channel 3, take the colour of the new index if its sample is above 1700 and keep their values
otherwise; every flag is clear afterwards. And it is what the loop's own moves do: from the wait, as many of them as POLL has
operations and one to end the wait, with no other agent's operation among them, lead to the same system, whether the outputs
are driven before the clear or after it (C6). -/
def Obligations.CycleProcessesWaitingSamples : Prop :=
  ∀ y : System, ∃ z, y.cycle = .next z ∧ (∀ n, z.pwt.F n = false) ∧
    z.env = y.env.processAll ((Channel.all.filter y.pwt.F).map fun n => (n, y.pwt.W n)) ∧
    z.env.log = y.env.log ++ ((Channel.all.filter y.pwt.F).map fun n => LogLine.sample n (y.pwt.W n)) ∧
    z.env.led1 = (if y.pwt.F .one then switchDuty Config.ledOn (y.pwt.W .one) else y.env.led1) ∧
    z.env.led2 = (if y.pwt.F .two then dimmerDuty Config.roundMode (y.pwt.W .two) else y.env.led2) ∧
    z.env.idx = (if y.pwt.F .three ∧ 1700 < (y.pwt.W .three).toNat then y.env.idx + 1 else y.env.idx) ∧
    (z.env.red, z.env.green, z.env.blue) =
      (if y.pwt.F .three ∧ 1700 < (y.pwt.W .three).toNat then colour (y.env.idx + 1)
        else (y.env.red, y.env.green, y.env.blue)) ∧
    (y.pos = .pause →
      System.turns (List.replicate (1 + (Channel.all.map fun n => (takeOps n (y.pwt.F n)).length).sum) .consumer) y = .next z)

/-- PWT at every width TSW and every number of channels NCH, the spec's named parameters (00_scope.md section 3,
93_implementation_defined.md U9, U23; decisions D1, D2, D26; entries 2 and 13): TICK counts modulo 2^TSW; a pulse of d
microseconds publishes d modulo 2^TSW, so that a long one aliases (70_reset_and_hazards.md, hazard "long pulses"), and touches
no other channel; RDF n returns 0 or 1 where there is a bit to return it in; RST leaves every W[n] at 1500 modulo 2^TSW,
which is 1500 from 11 bits on, with its start and flag cleared; up to the three channels that the field n can name, every
operation is read back from its word; and the defaults, 32 and 3, are the machine that exec and step are. -/
def Obligations.EveryWidthCountsModulo : Prop :=
  ∀ TSW NCH : Nat,
    (∀ s : State TSW NCH, ∃ t, execAtWidth .tick s = .next t ∧ t.now.toNat = (s.now.toNat + 1) % 2 ^ TSW) ∧
    (∀ (n : Channel NCH) (s : State TSW NCH) (d : Nat), s.F n = false → s.now ≠ 0 →
      ∃ t, runAtWidth (.rise n :: (advOps d NCH ++ [.fall n])) s = .next t ∧
        (t.W n).toNat = d % 2 ^ TSW ∧ t.S n = 0 ∧ t.F n = true ∧ ∀ m, m ≠ n → t.sameChan s m) ∧
    (∀ (n : Channel NCH) (s : State TSW NCH), 0 < TSW → ∃ t v, execAtWidth (.rdf n) s = .next t ∧ t.cRdata = some v ∧
      v.toNat = (if s.F n then 1 else 0) ∧ t.sameRegs s) ∧
    (∀ s : State TSW NCH, ∃ t, execAtWidth .rst s = .next t ∧ t.now = s.now ∧
      ∀ n, (t.W n).toNat = 1500 % 2 ^ TSW ∧ (11 ≤ TSW → (t.W n).toNat = 1500) ∧ t.S n = 0 ∧ t.F n = false) ∧
    (NCH ≤ 3 → ∀ i : Instr NCH, decode (encode i) NCH = .op i) ∧
    ∀ (is : List Instr) (s : State), runAtWidth is s = runOps is s

/-- The control loop beside the other agents (43_consumer_environment.md section 1, 41_consumer_handshake.md section 3,
60_exceptions.md section 8). "The loop runs forever": any turns, in any order, go on from any system, and what they do to PWT is
the run of their operations; among ten moves of the consumer, whatever falls between them, it ends a polling cycle. A turn
of another agent is its operation on PWT wherever it falls, inside POLL or in the wait, and moves nothing of the consumer; a
wait of d microseconds adds d to NOW and keeps all else. That an RST, too, leaves the consumer's outputs and its place in the
loop alone is the model's choice, entry 11 (DESIGN CHOICE, unsafe): the spec says only that they are no state of PWT (R39) and
that RST acts "whatever the consumer is doing" (R146). -/
def Obligations.LoopRunsForeverBesideTheProducer : Prop :=
  (∀ (us : List Turn) (y : System), ∃ z, System.turns us y = .next z ∧ runOps (System.trace us y) y.pwt = .next z.pwt) ∧
  (∀ (us : List Turn) (y : System), 10 ≤ us.count .consumer →
    ∃ vs ws z, us = vs ++ ws ∧ .consumer ∈ vs ∧ System.turns vs y = .next z ∧ z.pos = .pause) ∧
  (∀ (u : Turn) (y : System), u ≠ .consumer → ∃ i s, u.operation y.pos = some i ∧ exec i y.pwt = .next s ∧
    y.turn u = .next { y with pwt := s }) ∧
  ∀ (d : Nat) (y : System), ∃ z, System.turns (List.replicate d .microsecond) y = .next z ∧ z.env = y.env ∧ z.pos = y.pos ∧
    z.pwt.now = y.pwt.now + BitVec.ofNat 32 d ∧ ∀ n, z.pwt.sameChan y.pwt n

/-- The reference consumer keeps the protocol in every interleaving, and acts on every published sample exactly once
(43_consumer_environment.md section 1, 41_consumer_handshake.md section 2). The invariant: the ledger of channel n is sound,
its phase is the loop's position, and the log has one line for each width published, in order, but for one that waits. Every
turn but an RST, by any agent, from every system and ledger that meet it, is allowed by the protocol and keeps it; the launch
meets it; so over any turns with no RST the monitor never objects and the invariant holds. That the log keeps up at every
turn is the model's choice, entry 11 (DESIGN CHOICE): the dispatch rides on the round's own RDW n or CLR n, where R87 and step
2 of R95 allow a later step of the consumer, after the whole POLL too. -/
def Obligations.LoopActsOnEverySampleOnce : Prop :=
  (∀ (n : Channel) (u : Turn) (y z : System) (l : Ledger), l.Tracks n y → u ≠ .reset → y.turn u = .next z →
    ∃ l' : Ledger, l'.Tracks n z ∧
      match u.operation y.pos with
      | some i => l.next n i y.pwt z.pwt = some l'
      | none => l' = l) ∧
  (∀ (n : Channel) (nowReset : Word), Ledger.empty.Tracks n (System.launch nowReset)) ∧
  ∀ (n : Channel) (nowReset : Word) (us : List Turn) (z : System), .reset ∉ us →
    System.turns us (System.launch nowReset) = .next z →
    ∃ l : Ledger, watch n (System.trace us (System.launch nowReset)) (State.launch nowReset) Ledger.empty = some (z.pwt, l) ∧
      l.Tracks n z

/-! ### The trace syntax -/

/-- The text of a trace (30_encoding.md section 6): for every list of operations, the text with one operation a line parses to
those operations; exactly one blank stands before the channel number, so a line with two is outside the syntax; and an
annotated read agrees exactly when the number returned is the number written, whatever its size. -/
def Obligations.SpelledTraceParsesBack : Prop :=
  (∀ is : List Instr, parseTrace (spellTrace is) = some (is.map fun i => Line.op i none)) ∧
  (∀ (i : Instr) (n : Channel), i.channel = some n →
    parseLine ((mnemonicOf i).toList ++ [' ', ' ', digitOf n]) = none) ∧
  ∀ (n : Channel) (s : State) (v : Nat),
    ((Line.op (.rdf n) (some v)).agrees s = true ↔ v = if s.F n then 1 else 0) ∧
    ((Line.op (.rdw n) (some v)).agrees s = true ↔ v = (s.W n).toNat)
end

