-- ==== Sys2Proof/Laws/Channel.lean ====
section
/-!
SUPPORT. The channels: the default three by cases, number and index, and the channel field there and back. (Goals show an
operation or a register at the defaults with its arguments, Instr.rise 3 n or st.now 32 3: write Instr.rise n and st.now.)
-/

namespace Sys2Proof

namespace Channel

/-- The default three, by cases: use it as "induction n using Channel.threeCases". -/
theorem threeCases {motive : Channel → Prop} (one : motive .one) (two : motive .two) (three : motive .three) (n : Channel) :
    motive n :=
  match n with
  | ⟨0⟩ => one
  | ⟨1⟩ => two
  | ⟨2⟩ => three

theorem eq_one_or_two_or_three (n : Channel) : n = .one ∨ n = .two ∨ n = .three := by
  induction n using threeCases <;> decide

@[simp] theorem one_idx : Channel.one.idx = 0 := rfl

@[simp] theorem two_idx : Channel.two.idx = 1 := rfl

@[simp] theorem three_idx : Channel.three.idx = 2 := rfl

@[simp] theorem one_number : Channel.one.number = 1 := rfl

@[simp] theorem two_number : Channel.two.number = 2 := rfl

@[simp] theorem three_number : Channel.three.number = 3 := rfl

/-- POLL's order (R88). -/
theorem all_default : Channel.all = [.one, .two, .three] := by decide

@[simp] theorem mem_all {NCH : Nat} (n : Channel NCH) : n ∈ Channel.all NCH := List.mem_map.2 ⟨n.idx, by simp, rfl⟩

variable {NCH : Nat}

/-- A channel's number lies in 1..NCH (R17). -/
theorem number_bounds (n : Channel NCH) : 1 ≤ n.number ∧ n.number ≤ NCH := ⟨Nat.succ_le_succ (Nat.zero_le _), n.idx.isLt⟩

theorem ofNumber_eq_some {k : Nat} {n : Channel NCH} : ofNumber k = some n ↔ n.number = k := by
  unfold ofNumber
  split
  · rename_i h
    rw [Option.some_inj]
    constructor
    · rintro rfl
      show k - 1 + 1 = k
      omega
    · intro e
      apply Channel.ext
      apply Fin.ext
      show k - 1 = n.idx.val
      simp only [number] at e
      omega
  · rename_i h
    constructor
    · intro e; cases e
    · rintro rfl; exact absurd n.number_bounds h

@[simp] theorem ofNumber_number (n : Channel NCH) : ofNumber n.number = some n := ofNumber_eq_some.2 rfl

/-- The channel field names the channel back where the field is wide enough for the number (R61). -/
theorem ofField_field (h : NCH ≤ 3) (n : Channel NCH) : ofField n.field = some n := by
  have hb := n.number_bounds
  have : n.field.toNat = n.number := by
    simp only [field, BitVec.toNat_ofNat]
    exact Nat.mod_eq_of_lt (by omega)
  rw [ofField, this, ofNumber_number]

end Channel

end Sys2Proof
end

