-- ==== Sys2Proof/Laws/State.lean ====
section
/-!
SUPPORT. One lemma per accessor and per update of State, so that no later proof unfolds a record update. (Goals
show a field of a state at the defaults as st.now 32 3: write st.now.)
-/

namespace Sys2Proof.Machine

namespace State

variable {TSW NCH : Nat} (st : State TSW NCH) (n m : Channel NCH)

/-! ### One channel's registers -/

@[simp] theorem chan_setChan_same (r : ChanRegs TSW) : (st.setChan n r).chan n = r := by simp [chan, setChan]

@[simp] theorem chan_setChan_other (r : ChanRegs TSW) (h : m ≠ n) : (st.setChan n r).chan m = st.chan m := by
  have h' : n.idx.val ≠ m.idx.val := fun e => h (Channel.ext (Fin.ext e.symm))
  simp [chan, setChan, Vector.getElem_set_ne, h']

@[simp] theorem setChan_setChan (r r' : ChanRegs TSW) : (st.setChan n r).setChan n r' = st.setChan n r' := by simp [setChan]

@[simp] theorem setChan_now (r : ChanRegs TSW) : (st.setChan n r).now = st.now := rfl

@[simp] theorem setChan_cRdata (r : ChanRegs TSW) : (st.setChan n r).cRdata = st.cRdata := rfl

@[simp] theorem setChan_pending (r : ChanRegs TSW) : (st.setChan n r).pending = st.pending := rfl

@[simp] theorem chan_resetChannels : st.resetChannels.chan n = ChanRegs.reset := by simp [chan, resetChannels]

@[simp] theorem chan_launch (v : Word TSW) : (launch v : State TSW NCH).chan n = ChanRegs.reset := by simp [chan, launch]

/-- A state is the registers of its channels, the timebase, its delivered result and its events to come. -/
theorem ext_regs {a b : State TSW NCH} (hw : ∀ n, a.W n = b.W n) (hs : ∀ n, a.S n = b.S n) (hf : ∀ n, a.F n = b.F n)
    (hnow : a.now = b.now) (hr : a.cRdata = b.cRdata) (hp : a.pending = b.pending) : a = b := by
  have hc : ∀ n, a.chan n = b.chan n := fun n => ChanRegs.ext (hw n) (hs n) (hf n)
  have hv : a.chans = b.chans := Vector.ext fun i h => hc { idx := ⟨i, h⟩ }
  cases a; cases b
  simp only at hv hnow hr hp
  subst_vars
  rfl

/-! ### setW -/

@[simp] theorem W_setW_same (v : Word TSW) : (st.setW n v).W n = v := by simp [setW, W]

@[simp] theorem W_setW_other (v : Word TSW) (h : m ≠ n) : (st.setW n v).W m = st.W m := by simp [setW, W, h]

theorem W_setW (v : Word TSW) : (st.setW n v).W m = if m = n then v else st.W m := by
  split <;> simp_all

@[simp] theorem S_setW (v : Word TSW) : (st.setW n v).S m = st.S m := by
  by_cases h : m = n <;> simp [setW, S, h]

@[simp] theorem F_setW (v : Word TSW) : (st.setW n v).F m = st.F m := by
  by_cases h : m = n <;> simp [setW, F, h]

@[simp] theorem setW_now (v : Word TSW) : (st.setW n v).now = st.now := by simp [setW]

@[simp] theorem setW_cRdata (v : Word TSW) : (st.setW n v).cRdata = st.cRdata := by simp [setW]

@[simp] theorem setW_pending (v : Word TSW) : (st.setW n v).pending = st.pending := by simp [setW]

@[simp] theorem setW_setW (v v' : Word TSW) : (st.setW n v).setW n v' = st.setW n v' := by simp [setW]

/-! ### setS -/

@[simp] theorem W_setS (v : Word TSW) : (st.setS n v).W m = st.W m := by
  by_cases h : m = n <;> simp [setS, W, h]

@[simp] theorem S_setS_same (v : Word TSW) : (st.setS n v).S n = v := by simp [setS, S]

@[simp] theorem S_setS_other (v : Word TSW) (h : m ≠ n) : (st.setS n v).S m = st.S m := by simp [setS, S, h]

theorem S_setS (v : Word TSW) : (st.setS n v).S m = if m = n then v else st.S m := by
  split <;> simp_all

@[simp] theorem F_setS (v : Word TSW) : (st.setS n v).F m = st.F m := by
  by_cases h : m = n <;> simp [setS, F, h]

@[simp] theorem setS_now (v : Word TSW) : (st.setS n v).now = st.now := by simp [setS]

@[simp] theorem setS_cRdata (v : Word TSW) : (st.setS n v).cRdata = st.cRdata := by simp [setS]

@[simp] theorem setS_pending (v : Word TSW) : (st.setS n v).pending = st.pending := by simp [setS]

@[simp] theorem setS_setS (v v' : Word TSW) : (st.setS n v).setS n v' = st.setS n v' := by simp [setS]

/-! ### setF -/

@[simp] theorem W_setF (v : Bool) : (st.setF n v).W m = st.W m := by
  by_cases h : m = n <;> simp [setF, W, h]

@[simp] theorem S_setF (v : Bool) : (st.setF n v).S m = st.S m := by
  by_cases h : m = n <;> simp [setF, S, h]

@[simp] theorem F_setF_same (v : Bool) : (st.setF n v).F n = v := by simp [setF, F]

@[simp] theorem F_setF_other (v : Bool) (h : m ≠ n) : (st.setF n v).F m = st.F m := by simp [setF, F, h]

theorem F_setF (v : Bool) : (st.setF n v).F m = if m = n then v else st.F m := by
  split <;> simp_all

@[simp] theorem setF_now (v : Bool) : (st.setF n v).now = st.now := by simp [setF]

@[simp] theorem setF_cRdata (v : Bool) : (st.setF n v).cRdata = st.cRdata := by simp [setF]

@[simp] theorem setF_pending (v : Bool) : (st.setF n v).pending = st.pending := by simp [setF]

@[simp] theorem setF_setF (v v' : Bool) : (st.setF n v).setF n v' = st.setF n v' := by simp [setF]

/-! ### setNow -/

@[simp] theorem W_setNow (v : Word TSW) : (st.setNow v).W n = st.W n := rfl

@[simp] theorem S_setNow (v : Word TSW) : (st.setNow v).S n = st.S n := rfl

@[simp] theorem F_setNow (v : Word TSW) : (st.setNow v).F n = st.F n := rfl

@[simp] theorem setNow_now (v : Word TSW) : (st.setNow v).now = v := rfl

@[simp] theorem setNow_cRdata (v : Word TSW) : (st.setNow v).cRdata = st.cRdata := rfl

@[simp] theorem setNow_pending (v : Word TSW) : (st.setNow v).pending = st.pending := rfl

/-! ### deliver -/

@[simp] theorem W_deliver (v : Word TSW) : (st.deliver v).W n = st.W n := rfl

@[simp] theorem S_deliver (v : Word TSW) : (st.deliver v).S n = st.S n := rfl

@[simp] theorem F_deliver (v : Word TSW) : (st.deliver v).F n = st.F n := rfl

@[simp] theorem deliver_now (v : Word TSW) : (st.deliver v).now = st.now := rfl

@[simp] theorem deliver_cRdata (v : Word TSW) : (st.deliver v).cRdata = some v := rfl

@[simp] theorem deliver_pending (v : Word TSW) : (st.deliver v).pending = st.pending := rfl

/-! ### withPending -/

@[simp] theorem W_withPending (es : List (Event NCH)) : (st.withPending es).W n = st.W n := rfl

@[simp] theorem S_withPending (es : List (Event NCH)) : (st.withPending es).S n = st.S n := rfl

@[simp] theorem F_withPending (es : List (Event NCH)) : (st.withPending es).F n = st.F n := rfl

@[simp] theorem withPending_now (es : List (Event NCH)) : (st.withPending es).now = st.now := rfl

@[simp] theorem withPending_cRdata (es : List (Event NCH)) : (st.withPending es).cRdata = st.cRdata := rfl

@[simp] theorem withPending_pending (es : List (Event NCH)) : (st.withPending es).pending = es := rfl

/-! ### resetChannels -/

@[simp] theorem W_resetChannels : st.resetChannels.W n = 1500 := by simp [W, ChanRegs.reset, Config.wReset]

@[simp] theorem S_resetChannels : st.resetChannels.S n = 0 := by simp [S, ChanRegs.reset, Config.sNone]

@[simp] theorem F_resetChannels : st.resetChannels.F n = false := by simp [F, ChanRegs.reset]

@[simp] theorem resetChannels_now : st.resetChannels.now = st.now := rfl

@[simp] theorem resetChannels_cRdata : st.resetChannels.cRdata = st.cRdata := rfl

@[simp] theorem resetChannels_pending : st.resetChannels.pending = st.pending := rfl

/-! ### releaseBuffer -/

@[simp] theorem W_releaseBuffer : (st.releaseBuffer n).W m = st.W m := by simp [releaseBuffer]

@[simp] theorem S_releaseBuffer : (st.releaseBuffer n).S m = st.S m := by simp [releaseBuffer]

@[simp] theorem F_releaseBuffer_same : (st.releaseBuffer n).F n = false := by simp [releaseBuffer]

@[simp] theorem F_releaseBuffer_other (h : m ≠ n) : (st.releaseBuffer n).F m = st.F m := by simp [releaseBuffer, h]

@[simp] theorem releaseBuffer_now : (st.releaseBuffer n).now = st.now := by simp [releaseBuffer]

@[simp] theorem releaseBuffer_cRdata : (st.releaseBuffer n).cRdata = st.cRdata := by simp [releaseBuffer]

@[simp] theorem releaseBuffer_pending : (st.releaseBuffer n).pending = st.pending := by simp [releaseBuffer]

/-! ### publish: everything an accepted falling edge does -/

@[simp] theorem W_publish_same : (st.publish n).W n = st.now - st.S n := by simp [publish, elapsed, timestamp]

@[simp] theorem W_publish_other (h : m ≠ n) : (st.publish n).W m = st.W m := by simp [publish, h]

@[simp] theorem S_publish_same : (st.publish n).S n = 0 := by simp [publish, Config.sNone]

@[simp] theorem S_publish_other (h : m ≠ n) : (st.publish n).S m = st.S m := by simp [publish, h]

@[simp] theorem F_publish_same : (st.publish n).F n = true := by simp [publish]

@[simp] theorem F_publish_other (h : m ≠ n) : (st.publish n).F m = st.F m := by simp [publish, h]

@[simp] theorem publish_now : (st.publish n).now = st.now := by simp [publish]

@[simp] theorem publish_cRdata : (st.publish n).cRdata = st.cRdata := by simp [publish]

@[simp] theorem publish_pending : (st.publish n).pending = st.pending := by simp [publish]

/-! ### launch -/

@[simp] theorem W_launch (v : Word TSW) : (launch v).W n = 1500 := by simp [W, ChanRegs.reset, Config.wReset]

@[simp] theorem S_launch (v : Word TSW) : (launch v).S n = 0 := by simp [S, ChanRegs.reset, Config.sNone]

@[simp] theorem F_launch (v : Word TSW) : (launch v).F n = false := by simp [F, ChanRegs.reset]

@[simp] theorem launch_now (v : Word TSW) : (launch v : State TSW NCH).now = v := rfl

@[simp] theorem launch_cRdata (v : Word TSW) : (launch v : State TSW NCH).cRdata = none := rfl

@[simp] theorem launch_pending (v : Word TSW) : (launch v : State TSW NCH).pending = [] := rfl

end State

end Sys2Proof.Machine
end

