-- ==== Sys2Proof/Laws/Exec.lean ====
section
/-!
SUPPORT. What each shared operation can do, said once: the guard of a falling edge, the two values of a flag read, the meaning
of each operation as an equation, the inversion lemma of exec, and the equations of runs. Later proofs cite these instead of
unfolding.
-/

namespace Sys2Proof.Machine

variable {TSW NCH : Nat}

@[simp] theorem timestamp_eq (st : State TSW NCH) : st.timestamp = st.now := rfl

@[simp] theorem elapsed_eq (st : State TSW NCH) (n : Channel NCH) : st.elapsed n = st.now - st.S n := rfl

@[simp] theorem nextMicrosecond_eq (st : State TSW NCH) : st.nextMicrosecond = st.now + 1 := rfl

@[simp] theorem zextFlag_true : zextFlag true = (1 : Word) := by decide

@[simp] theorem zextFlag_false : zextFlag (TSW := TSW) false = 0 := by simp [zextFlag]

theorem zextFlag_eq_one (f : Bool) : zextFlag f = (1 : Word) ↔ f = true := by cases f <;> decide

/-- The guard of R76 in its two parts. -/
theorem accepts_iff (st : State TSW NCH) (n : Channel NCH) : st.accepts n = true ↔ st.S n ≠ 0 ∧ st.F n = false := by
  simp [State.accepts, State.startPending, Config.sNone]

/-- The ignored cases of R159: stale start, overrun, or both. -/
theorem accepts_false_iff (st : State TSW NCH) (n : Channel NCH) : st.accepts n = false ↔ st.S n = 0 ∨ st.F n = true := by
  simp only [State.accepts, State.startPending, Config.sNone, Bool.and_eq_false_iff, bne_eq_false_iff_eq, Bool.not_eq_false']

@[simp] theorem andThen_next {α β : Type} (a : α) (k : α → Host.Outcome β Fault Refusal) :
    andThen (.next a) k = k a := rfl

/-- A result that goes on came from one that went on. -/
theorem andThen_eq_next {α β : Type} {o : Host.Outcome α Fault Refusal} {k : α → Host.Outcome β Fault Refusal} {b : β} :
    andThen o k = .next b ↔ ∃ a, o = .next a ∧ k a = .next b := by
  cases o <;> simp [andThen]

/-! ### The meanings -/

@[simp] theorem sNone_eq : (Config.sNone : Word TSW) = 0 := rfl

@[simp] theorem wReset_eq : (Config.wReset : Word TSW) = 1500 := rfl

/-- The guard of a falling edge reads only S[n] and F[n]. -/
theorem accepts_congr {a b : State TSW NCH} {n : Channel NCH} (hs : a.S n = b.S n) (hf : a.F n = b.F n) :
    a.accepts n = b.accepts n := by
  simp [State.accepts, State.startPending, hs, hf]

@[simp] theorem exec_rise (n : Channel) (st : State) : exec (.rise n) st = .next (st.setS n st.now) := rfl

theorem exec_fall (n : Channel) (st : State) :
    exec (.fall n) st = .next (if st.accepts n then st.publish n else st) := by
  show (if st.accepts n then _ else _) = _
  split <;> rfl

@[simp] theorem exec_rdf (n : Channel) (st : State) : exec (.rdf n) st = .next (st.deliver (zextFlag (st.F n))) := rfl

@[simp] theorem exec_rdw (n : Channel) (st : State) : exec (.rdw n) st = .next (st.deliver (st.W n)) := rfl

@[simp] theorem exec_clr (n : Channel) (st : State) : exec (.clr n) st = .next ((st.releaseBuffer n).deliver 0) := rfl

@[simp] theorem exec_tick (st : State) : exec .tick st = .next (st.setNow (st.now + 1)) := rfl

@[simp] theorem exec_rst (st : State) : exec .rst st = .next st.resetChannels := rfl

/-- Everything one operation can do, guards included. -/
theorem exec_cases {i : Instr} {st t : State} (h : exec i st = .next t) :
    (∃ n, i = .rise n ∧ t = st.setS n st.now) ∨
    (∃ n, i = .fall n ∧ st.S n ≠ 0 ∧ st.F n = false ∧ t = st.publish n) ∨
    (∃ n, i = .fall n ∧ (st.S n = 0 ∨ st.F n = true) ∧ t = st) ∨
    (∃ n, i = .rdf n ∧ t = st.deliver (zextFlag (st.F n))) ∨
    (∃ n, i = .rdw n ∧ t = st.deliver (st.W n)) ∨
    (∃ n, i = .clr n ∧ t = (st.releaseBuffer n).deliver 0) ∨
    (i = .tick ∧ t = st.setNow (st.now + 1)) ∨
    (i = .rst ∧ t = st.resetChannels) := by
  cases i with
  | rise n => simp at h; simp [h]
  | fall n =>
    rw [exec_fall] at h
    cases ha : st.accepts n with
    | true =>
      have hg := (accepts_iff st n).1 ha
      simp [ha] at h
      exact .inr (.inl ⟨n, rfl, hg.1, hg.2, h.symm⟩)
    | false =>
      have hg := (accepts_false_iff st n).1 ha
      simp [ha] at h
      exact .inr (.inr (.inl ⟨n, rfl, hg, h.symm⟩))
  | rdf n => simp at h; simp [h]
  | rdw n => simp at h; simp [h]
  | clr n => simp at h; simp [h]
  | tick => simp at h; simp [h]
  | rst => simp at h; simp [h]

/-- The effect of an operation does not depend on the events to come, and leaves them alone. -/
theorem exec_withPending {i : Instr} {st t : State} (h : exec i st = .next t) (es : List Event) :
    exec i (st.withPending es) = .next (t.withPending es) := by
  cases i with
  | fall n =>
    have ha : (st.withPending es).accepts n = st.accepts n := accepts_congr (by simp) (by simp)
    rw [exec_fall] at h
    cases h
    rw [exec_fall, ha]
    split <;> rfl
  | rise n => cases h; rfl
  | rdf n => cases h; rfl
  | rdw n => cases h; rfl
  | clr n => cases h; rfl
  | tick => cases h; rfl
  | rst => cases h; rfl

/-- No operation touches the events to come. -/
theorem exec_pending {i : Instr} {st t : State} (h : exec i st = .next t) : t.pending = st.pending := by
  obtain ⟨n, -, rfl⟩ | ⟨n, -, -, -, rfl⟩ | ⟨n, -, -, rfl⟩ | ⟨n, -, rfl⟩ | ⟨n, -, rfl⟩ | ⟨n, -, rfl⟩ | ⟨-, rfl⟩ | ⟨-, rfl⟩ :=
    exec_cases h <;> simp

/-! ### Runs -/

@[simp] theorem runOps_nil (st : State) : runOps [] st = .next st := rfl

@[simp] theorem runOps_cons (i : Instr) (is : List Instr) (st : State) :
    runOps (i :: is) st = andThen (exec i st) (runOps is) := rfl

theorem runOps_append (is js : List Instr) (st : State) :
    runOps (is ++ js) st = andThen (runOps is st) (runOps js) := by
  induction is generalizing st with
  | nil => rfl
  | cons i is ih =>
    simp only [List.cons_append, runOps_cons]
    cases exec i st <;> simp [andThen, ih]

/-- The induction over runs, packaged once: a property that every operation of the run keeps holds at its end. -/
theorem runOps_keeps {P : State → Prop} {is : List Instr} {st t : State} (h : runOps is st = .next t) (h0 : P st)
    (keep : ∀ i ∈ is, ∀ a b, P a → exec i a = .next b → P b) : P t := by
  induction is generalizing st with
  | nil => simp at h; exact h ▸ h0
  | cons i is ih =>
    rw [runOps_cons, andThen_eq_next] at h
    obtain ⟨a, ha, ht⟩ := h
    exact ih ht (keep i (by simp) st a h0 ha) fun j hj => keep j (by simp [hj])

end Sys2Proof.Machine
end

