-- ==== Sys2Proof/Laws/Trace.lean ====
section
/-!
SUPPORT. What the pseudo-operations do, said once: the two outcomes of TAKE and the effect of ADV.
-/

namespace Sys2Proof.Machine

/-- TAKE on a ready channel: the width is delivered and the flag cleared. -/
theorem take_ready {n : Channel} {st : State} (h : st.F n = true) :
    take n st = .next { state := (st.releaseBuffer n).deliver 0, delivered := [(n, st.W n)] } := by
  have hd : (((st.deliver 1).deliver (st.W n)).releaseBuffer n).deliver 0 = (st.releaseBuffer n).deliver 0 := by
    rfl
  simpa [take, finishRound, h] using hd

/-- TAKE on an idle channel: the flag is read, nothing else. -/
theorem take_idle {n : Channel} {st : State} (h : st.F n = false) :
    take n st = .next { state := st.deliver 0, delivered := [] } := by
  simp [take, h]

/-- ADV d adds d to NOW and touches nothing else. -/
theorem runOps_advOps (d : Nat) (st : State) :
    runOps (advOps d) st = .next (st.setNow (st.now + BitVec.ofNat 32 d)) := by
  induction d generalizing st with
  | zero => simp [advOps, State.setNow]
  | succ d ih =>
    have hn : st.now + 1 + BitVec.ofNat 32 d = st.now + BitVec.ofNat 32 (d + 1) := by
      rw [Nat.add_comm d 1, BitVec.ofNat_add]; bv_omega
    show andThen (exec .tick st) (runOps (advOps d)) = _
    rw [exec_tick, andThen_next, ih]
    simp only [State.setNow_now, hn]
    rfl

end Sys2Proof.Machine
end

