-- ==== Sys2Proof/Laws/Environment.lean ====
section
/-!
SUPPORT. The shared operations of the reference consumer: how far a rounded quotient lies from the exact one, and the two
outcomes of a trigger.
-/

namespace Sys2Proof.Machine

/-- Truncation is the floor of a non-negative quotient, and not positive for a negative one. -/
theorem roundQuotient_truncate (x : Int) :
    (0 ≤ x → roundQuotient .truncate x 1000 = x / 1000) ∧ (x ≤ 0 → roundQuotient .truncate x 1000 ≤ 0) := by
  refine ⟨fun h => Int.tdiv_eq_ediv_of_nonneg h, fun h => ?_⟩
  have hx : x.tdiv 1000 = -((-x).tdiv 1000) := by rw [Int.neg_tdiv, neg_neg]
  show x.tdiv 1000 ≤ 0
  rw [hx, Int.tdiv_eq_ediv_of_nonneg (by omega)]
  omega

/-- The nearest modes stay within half a unit of the exact quotient. -/
theorem roundQuotient_nearest {mode : RoundMode} (h : mode ≠ .truncate) (x : Int) :
    2 * (1000 * roundQuotient mode x 1000 - x) ≤ 1000 ∧ -1000 ≤ 2 * (1000 * roundQuotient mode x 1000 - x) := by
  cases mode with
  | truncate => exact absurd rfl h
  | nearestHalfUp => simp only [roundQuotient]; split <;> omega
  | nearestHalfEven =>
    simp only [roundQuotient]
    split
    · omega
    · split
      · omega
      · split <;> omega

/-- The trigger test as a comparison of numbers. -/
theorem triggers_iff (p : Word) : triggers p = true ↔ 1700 < p.toNat := by
  simp [triggers, Config.trigThresh]

/-! ### The mapper of each channel -/

@[simp] theorem map_one (v : Env) (p : Word) : v.map .one p = { v with led1 := switchDuty Config.ledOn p } := rfl

@[simp] theorem map_two (v : Env) (p : Word) : v.map .two p = { v with led2 := dimmerDuty Config.roundMode p } := rfl

@[simp] theorem map_three (v : Env) (p : Word) : v.map .three p = v.trigger p := rfl

/-! ### The control loop -/

@[simp] theorem afterRound_one : LoopPos.afterRound .one = .readFlag .two := rfl

@[simp] theorem afterRound_two : LoopPos.afterRound .two = .readFlag .three := rfl

@[simp] theorem afterRound_three : LoopPos.afterRound .three = .pause := rfl

/-- After a round the loop is inside none. -/
theorem afterRound_cases (n : Channel) : LoopPos.afterRound n = .pause ∨ ∃ m, LoopPos.afterRound n = .readFlag m := by
  unfold LoopPos.afterRound
  split
  · exact .inr ⟨_, rfl⟩
  · exact .inl rfl

@[simp] theorem phase_afterRound (n m : Channel) : (LoopPos.afterRound n).phase m = .waiting := by
  obtain h | ⟨k, h⟩ := afterRound_cases n <;> rw [h] <;> rfl

/-- After a round no sample is acted on already. -/
theorem actedOn_afterRound {y : System} {n : Channel} (h : y.pos = .afterRound n) (m : Channel) : y.actedOn m = false := by
  obtain h' | ⟨k, h'⟩ := afterRound_cases n <;> simp [System.actedOn, h, h']

theorem consume_ready {y : System} {n : Channel} (h : y.pos = .readFlag n) (hf : y.pwt.F n = true) :
    y.consume = .next { y with pwt := y.pwt.deliver 1, pos := .readWidth n } := by
  simp [System.consume, System.readFlag, h, hf]

theorem consume_idle {y : System} {n : Channel} (h : y.pos = .readFlag n) (hf : y.pwt.F n = false) :
    y.consume = .next { y with pwt := y.pwt.deliver 0, pos := .afterRound n } := by
  simp [System.consume, System.readFlag, h, hf]

theorem consume_width {y : System} {n : Channel} (h : y.pos = .readWidth n) :
    y.consume = .next { pwt := y.pwt.deliver (y.pwt.W n)
                        env := y.env.dispatchWhen Config.actBeforeClear n (y.pwt.W n)
                        pos := .clear n (y.pwt.W n) } := by
  simp [System.consume, System.readWidth, h]

theorem consume_clear {y : System} {n : Channel} {p : Word} (h : y.pos = .clear n p) :
    y.consume = .next { pwt := (y.pwt.releaseBuffer n).deliver 0
                        env := y.env.dispatchWhen (!Config.actBeforeClear) n p
                        pos := .afterRound n } := by
  simp [System.consume, System.clear, h]

theorem consume_pause {y : System} (h : y.pos = .pause) : y.consume = .next { y with pos := .readFlag .one } := by
  simp [System.consume, h]

/-- Everything the consumer's move can be. -/
theorem consume_cases (y : System) :
    (∃ n, y.pos = .readFlag n ∧ y.pwt.F n = true ∧
      y.consume = .next { y with pwt := y.pwt.deliver 1, pos := .readWidth n }) ∨
    (∃ n, y.pos = .readFlag n ∧ y.pwt.F n = false ∧
      y.consume = .next { y with pwt := y.pwt.deliver 0, pos := .afterRound n }) ∨
    (∃ n, y.pos = .readWidth n ∧
      y.consume = .next { pwt := y.pwt.deliver (y.pwt.W n)
                          env := y.env.dispatchWhen Config.actBeforeClear n (y.pwt.W n)
                          pos := .clear n (y.pwt.W n) }) ∨
    (∃ n p, y.pos = .clear n p ∧
      y.consume = .next { pwt := (y.pwt.releaseBuffer n).deliver 0
                          env := y.env.dispatchWhen (!Config.actBeforeClear) n p
                          pos := .afterRound n }) ∨
    (y.pos = .pause ∧ y.consume = .next { y with pos := .readFlag .one }) := by
  cases h : y.pos with
  | readFlag n =>
    cases hf : y.pwt.F n with
    | true => exact .inl ⟨n, rfl, hf, consume_ready h hf⟩
    | false => exact .inr (.inl ⟨n, rfl, hf, consume_idle h hf⟩)
  | readWidth n => exact .inr (.inr (.inl ⟨n, rfl, consume_width h⟩))
  | clear n p => exact .inr (.inr (.inr (.inl ⟨n, p, rfl, consume_clear h⟩)))
  | pause => exact .inr (.inr (.inr (.inr ⟨rfl, consume_pause h⟩)))

@[simp] theorem turn_consumer (y : System) : y.turn .consumer = y.consume := rfl

/-- A turn of another agent is its operation on PWT, and nothing else. -/
theorem turn_other {u : Turn} {y : System} (h : u ≠ .consumer) :
    ∃ i, u.operation y.pos = some i ∧ y.turn u = andThen (exec i y.pwt) fun s => .next { y with pwt := s } := by
  cases u with
  | consumer => exact absurd rfl h
  | edge n level => exact ⟨_, rfl, rfl⟩
  | microsecond => exact ⟨_, rfl, rfl⟩
  | reset => exact ⟨_, rfl, rfl⟩

/-- What a turn does to PWT: its operation, if it performs one. -/
theorem turn_operation {u : Turn} {y z : System} (h : y.turn u = .next z) :
    match u.operation y.pos with
    | some i => exec i y.pwt = .next z.pwt
    | none => z.pwt = y.pwt := by
  by_cases hu : u = .consumer
  · subst hu
    replace h : y.consume = .next z := h
    obtain ⟨n, hp, hf, hc⟩ | ⟨n, hp, hf, hc⟩ | ⟨n, hp, hc⟩ | ⟨n, p, hp, hc⟩ | ⟨hp, hc⟩ := consume_cases y <;>
      rw [hc] at h <;> cases h <;> simp_all [Turn.operation, LoopPos.operation]
  · obtain ⟨i, hi, ht⟩ := turn_other (y := y) hu
    rw [hi]
    rw [ht, andThen_eq_next] at h
    obtain ⟨s, hs, hz⟩ := h
    cases hz
    exact hs

@[simp] theorem turns_nil (y : System) : System.turns [] y = .next y := rfl

@[simp] theorem turns_cons (u : Turn) (us : List Turn) (y : System) :
    System.turns (u :: us) y = andThen (y.turn u) (System.turns us) := rfl

@[simp] theorem trace_nil (y : System) : System.trace [] y = [] := rfl

theorem trace_cons {u : Turn} {y z : System} (h : y.turn u = .next z) (us : List Turn) :
    System.trace (u :: us) y = (u.operation y.pos).toList ++ System.trace us z := by
  simp [System.trace, h]

/-- A whole round of the control loop, with nothing in between, is TAKE n with its dispatch (R87, R95). -/
theorem turns_round {y : System} {n : Channel} (h : y.pos = .readFlag n) :
    ∃ a, take n y.pwt = .next a ∧ System.turns (List.replicate (takeOps n (y.pwt.F n)).length .consumer) y =
      .next { pwt := a.state, env := y.env.processAll a.delivered, pos := .afterRound n } := by
  cases hf : y.pwt.F n with
  | true =>
    refine ⟨_, take_ready hf, ?_⟩
    show System.turns [.consumer, .consumer, .consumer] y = _
    rw [turns_cons, turn_consumer, consume_ready h hf, andThen_next, turns_cons, turn_consumer, consume_width rfl,
      andThen_next, turns_cons, turn_consumer, consume_clear rfl, andThen_next, turns_nil]
    simp only [Env.processAll, List.foldl, Env.dispatchWhen, State.W_deliver]
    congr 2
    · cases Config.actBeforeClear <;> rfl
  | false =>
    refine ⟨_, take_idle hf, ?_⟩
    show System.turns [.consumer] y = _
    rw [turns_cons, turn_consumer, consume_idle h hf, andThen_next, turns_nil]
    rfl

theorem turns_append (us vs : List Turn) (y : System) :
    System.turns (us ++ vs) y = andThen (System.turns us y) (System.turns vs) := by
  induction us generalizing y with
  | nil => rfl
  | cons u us ih =>
    simp only [List.cons_append, turns_cons]
    cases y.turn u <;> simp [andThen, ih]

/-- A dispatched width is one more line of its own channel's log. -/
theorem logged_process (v : Env) (n m : Channel) (p : Word) :
    (v.process m p).logged n = v.logged n ++ (if m = n then [p] else []) := by
  simp only [Env.logged, Env.process, List.filterMap_append, List.filterMap_cons, List.filterMap_nil]
  split <;> simp_all

end Sys2Proof.Machine
end

