-- ==== Sys2Proof/Laws/PerInstr.lean ====
section
/-!
SUPPORT. Statements about every operation as syntax, one lemma per constructor: each is well-formed, each word names the
domain of the agent that performs it (30_encoding.md R70), and each is spelled by a line that parses back to it (R71).
-/

namespace Sys2Proof.Laws

namespace InRange

/-- The operation's channel number, where it has one, lies in 1..NCH (R17, R61). -/
def Statement (i : Instr) : Prop := i.wf = true

theorem rise (n : Channel) : Statement (.rise n) := decide_eq_true n.number_bounds

theorem fall (n : Channel) : Statement (.fall n) := decide_eq_true n.number_bounds

theorem rdf (n : Channel) : Statement (.rdf n) := decide_eq_true n.number_bounds

theorem rdw (n : Channel) : Statement (.rdw n) := decide_eq_true n.number_bounds

theorem clr (n : Channel) : Statement (.clr n) := decide_eq_true n.number_bounds

theorem tick : Statement .tick := rfl

theorem rst : Statement .rst := rfl

end InRange

namespace NamesDomain

/-- The two high bits of the operation's word name its agent's domain (R70). -/
def Statement (i : Instr) : Prop := wordDomain (encode i) = i.agent.domain

theorem rise (n : Channel) : Statement (.rise n) := by induction n using Channel.threeCases <;> rfl

theorem fall (n : Channel) : Statement (.fall n) := by induction n using Channel.threeCases <;> rfl

theorem rdf (n : Channel) : Statement (.rdf n) := by induction n using Channel.threeCases <;> rfl

theorem rdw (n : Channel) : Statement (.rdw n) := by induction n using Channel.threeCases <;> rfl

theorem clr (n : Channel) : Statement (.clr n) := by induction n using Channel.threeCases <;> rfl

theorem tick : Statement .tick := rfl

theorem rst : Statement .rst := rfl

end NamesDomain

namespace SpelledBack

/-- The line of text that spells the operation parses to it (R71). -/
def Statement (i : Instr) : Prop := Machine.parseLine (Machine.spell i) = some (some (.op i none))

theorem rise (n : Channel) : Statement (.rise n) := by induction n using Channel.threeCases <;> (unfold Statement; decide)

theorem fall (n : Channel) : Statement (.fall n) := by induction n using Channel.threeCases <;> (unfold Statement; decide)

theorem rdf (n : Channel) : Statement (.rdf n) := by induction n using Channel.threeCases <;> (unfold Statement; decide)

theorem rdw (n : Channel) : Statement (.rdw n) := by induction n using Channel.threeCases <;> (unfold Statement; decide)

theorem clr (n : Channel) : Statement (.clr n) := by induction n using Channel.threeCases <;> (unfold Statement; decide)

theorem tick : Statement .tick := by unfold Statement; decide

theorem rst : Statement .rst := by unfold Statement; decide

end SpelledBack

end Sys2Proof.Laws
end

