-- ==== Sys2Proof/Laws/Step.lean ====
section
/-!
SUPPORT. What one step can do: nothing when no event is pending; otherwise the event's operation, an ignored command or a
refused word.
-/

namespace Sys2Proof.Machine

/-- What an event does, by the operation it stands for. -/
theorem perform_cases (e : Event) (st : State) :
    (∃ i, e.operation = some i ∧ perform e st = exec i st) ∨
    (∃ w, e = .command w ∧ e.operation = none ∧ perform e st = .next (st.deliver 0)) ∨
    (∃ w why, e = .word w ∧ decode w = .invalid why ∧ perform e st = .refused (.invalidWord w why)) := by
  cases e with
  | word w =>
    cases hd : decode w with
    | op i => exact .inl ⟨i, by simp [Event.operation, hd], by simp [perform, performWord, hd]⟩
    | invalid why => exact .inr (.inr ⟨w, why, rfl, hd, by simp [perform, performWord, hd]⟩)
  | pin n level => cases level <;> exact .inl ⟨_, rfl, rfl⟩
  | reset => exact .inl ⟨_, rfl, rfl⟩
  | microsecond => exact .inl ⟨_, rfl, rfl⟩
  | command w =>
    cases hd : decode w with
    | op i =>
      by_cases ha : i.agent = .consumer
      · exact .inl ⟨i, by simp [Event.operation, hd, ha], by simp [perform, performCommand, hd, ha]⟩
      · exact .inr (.inl ⟨w, rfl, by simp [Event.operation, hd, ha], by simp [perform, performCommand, hd, ha, ignoreCommand]⟩)
    | invalid why =>
      exact .inr (.inl ⟨w, rfl, by simp [Event.operation, hd], by simp [perform, performCommand, hd, ignoreCommand]⟩)

/-- Everything a step that goes on can have done. -/
theorem step_cases {st t : State} (h : step st = .next t) :
    (st.pending = [] ∧ t = st) ∨
    (∃ e es i, st.pending = e :: es ∧ e.operation = some i ∧ exec i (st.withPending es) = .next t) ∨
    (∃ w es, st.pending = .command w :: es ∧ t = (st.withPending es).deliver 0) := by
  unfold step performNext at h
  cases hp : st.pending with
  | nil => simp [hp, idle] at h; exact .inl ⟨rfl, h.symm⟩
  | cons e es =>
    simp only [hp] at h
    obtain ⟨i, hi, he⟩ | ⟨w, rfl, -, he⟩ | ⟨w, why, -, -, he⟩ := perform_cases e (st.withPending es)
    · exact .inr (.inl ⟨e, es, i, rfl, hi, he ▸ h⟩)
    · rw [he] at h; cases h; exact .inr (.inr ⟨w, es, rfl, rfl⟩)
    · rw [he] at h; cases h

/-- A run of any Core, one step further, through a step that goes on. -/
theorem core_run_succ (M : Host.Core) {st t : M.State} (h : M.step st = .next t) (k : Nat) :
    M.run (k + 1) st = M.run k t := by
  simp only [Host.Core.run, h]

/-- The same for PWT's own step. -/
theorem run_succ {st t : State} (h : step st = .next t) (k : Nat) :
    Host.Core.run Sys2Proof.core (k + 1) st = Host.Core.run Sys2Proof.core k t :=
  core_run_succ Sys2Proof.core h k

end Sys2Proof.Machine
end

