-- ==== Sys2Proof/Laws/Width.lean ====
section
/-!
SUPPORT. The operations at any width: that the default width is exec, each operation as an equation, and ADV.
-/

namespace Sys2Proof.Machine

variable {TSW NCH : Nat}

/-- The default of the parameter is the model that step runs. -/
theorem execAtWidth_default (i : Instr) (st : State) : execAtWidth i st = exec i st := by cases i <;> rfl

theorem runAtWidth_default (is : List Instr) (st : State) : runAtWidth is st = runOps is st := by
  induction is generalizing st with
  | nil => rfl
  | cons i is ih =>
    show andThen (execAtWidth i st) (runAtWidth is) = andThen (exec i st) (runOps is)
    rw [execAtWidth_default, funext ih]

@[simp] theorem execAtWidth_rise (n : Channel NCH) (st : State TSW NCH) :
    execAtWidth (.rise n) st = .next (st.setS n st.now) := rfl

theorem execAtWidth_fall (n : Channel NCH) (st : State TSW NCH) :
    execAtWidth (.fall n) st = .next (if st.accepts n then st.publish n else st) := by
  show (if st.accepts n then _ else _) = _
  split <;> rfl

@[simp] theorem execAtWidth_tick (st : State TSW NCH) : execAtWidth .tick st = .next (st.setNow (st.now + 1)) := rfl

/-- A width that has a bit holds a flag as 0 or 1. -/
theorem zextFlag_toNat (h : 0 < TSW) (f : Bool) : (zextFlag (TSW := TSW) f).toNat = f.toNat := by
  have h1 : f.toNat < 2 ^ TSW := by
    have : 2 ^ 1 ≤ 2 ^ TSW := Nat.pow_le_pow_right (by decide) h
    cases f <;> simp [Bool.toNat]
    omega
  simp [zextFlag, Nat.mod_eq_of_lt h1]

@[simp] theorem runAtWidth_nil (st : State TSW NCH) : runAtWidth [] st = .next st := rfl

@[simp] theorem runAtWidth_cons (i : Instr NCH) (is : List (Instr NCH)) (st : State TSW NCH) :
    runAtWidth (i :: is) st = andThen (execAtWidth i st) (runAtWidth is) := rfl

theorem runAtWidth_append (is js : List (Instr NCH)) (st : State TSW NCH) :
    runAtWidth (is ++ js) st = andThen (runAtWidth is st) (runAtWidth js) := by
  induction is generalizing st with
  | nil => rfl
  | cons i is ih =>
    simp only [List.cons_append, runAtWidth_cons]
    cases execAtWidth i st <;> simp [andThen, ih]

/-- ADV d at any width adds d to NOW modulo 2^TSW (R91). -/
theorem runAtWidth_advOps (d : Nat) (st : State TSW NCH) :
    runAtWidth (advOps d NCH) st = .next (st.setNow (st.now + BitVec.ofNat TSW d)) := by
  induction d generalizing st with
  | zero => simp [advOps, State.setNow]
  | succ d ih =>
    have hn : st.now + 1 + BitVec.ofNat TSW d = st.now + BitVec.ofNat TSW (d + 1) := by
      rw [Nat.add_comm d 1, BitVec.ofNat_add, ← BitVec.add_assoc]; rfl
    show andThen (execAtWidth .tick st) (runAtWidth (advOps d NCH)) = _
    rw [execAtWidth_tick, andThen_next, ih]
    simp only [State.setNow_now, hn]
    rfl

end Sys2Proof.Machine
end

