-- ==== Sys2Proof/Tests/Slice0.lean ====
section
/-!
SUPPORT. Tests. Every expected value is taken from 95_test_vectors.md (V1 to V41, EV1 to EV4) or from the opcode table of
30_encoding.md R62. After them, one witness for the hypotheses of each statement in Certificates/Slice0/Obligations.lean.
-/

open Sys2Proof Sys2Proof.Machine

/-- The state a result goes on to, if it does. -/
def afterOf {α : Type} : Host.Outcome α Fault Refusal → Option α
  | .next t => some t
  | .fault _ => none
  | .refused _ => none

/-- The launch state at NOW, with channel 1 at (W, S, F). -/
def stateAt (now w s : Word) (f : Bool) : State := (State.launch now).setChan .one { w := w, s := s, f := f }

/-- Channel 1 of a result, as (W, S, F). -/
def chan1 (o : Host.Outcome State Fault Refusal) : Option (Word × Word × Bool) :=
  (afterOf o).map fun t => (t.W .one, t.S .one, t.F .one)

/-- The value delivered by a result. -/
def delivered (o : Host.Outcome State Fault Refusal) : Option Word := (afterOf o).bind State.cRdata

/-! ### Decoding: words written out bit by bit (V35) -/

theorem test_decode_rise : decode 0b00010001#8 = .op (.rise .one) := by decide
theorem test_decode_fall : decode 0b00100010#8 = .op (.fall .two) := by decide
theorem test_decode_rdf : decode 0b01000011#8 = .op (.rdf .three) := by decide
theorem test_decode_rdw : decode 0b01010001#8 = .op (.rdw .one) := by decide
theorem test_decode_clr : decode 0b01100010#8 = .op (.clr .two) := by decide
theorem test_decode_tick : decode 0b10000000#8 = .op .tick := by decide
theorem test_decode_rst : decode 0b11110000#8 = .op .rst := by decide
theorem test_decode_table_word : decodeTableWord 8 0x23 = some (.fall .three) := by decide
theorem test_decode_table_word_invalid : decodeTableWord 8 0x2F = none := by decide

/-- V36: every listed word is invalid. -/
theorem test_decode_invalid_words :
    ∀ w ∈ ([0x00, 0x10, 0x14, 0x15, 0x2F, 0x30, 0x31, 0x40, 0x44, 0x64, 0x70, 0x81, 0x84, 0x90, 0xE3, 0xF1, 0xFF] :
      List (BitVec 8)), ∀ i, decode w ≠ .op i := by
  have h : ∀ w ∈ ([0x00, 0x10, 0x14, 0x15, 0x2F, 0x30, 0x31, 0x40, 0x44, 0x64, 0x70, 0x81, 0x84, 0x90, 0xE3, 0xF1, 0xFF] :
      List (BitVec 8)), (match decode w with | .op _ => false | .invalid _ => true) = true := by decide
  intro w hw i hi
  have hv := h w hw
  rw [hi] at hv
  cases hv

/-! ### WellFormed: an ill-formed word for each check, refused by the check and by the decoder -/

theorem test_wf_reserved_opcode :
    opcodeAssigned 0x30 = false ∧ wordValid 0x30 = false ∧ decode 0x30 = .invalid .reservedOpcode := by decide
theorem test_wf_z_not_clear : zClear 0x15 = false ∧ wordValid 0x15 = false ∧ decode 0x15 = .invalid .zNotZero := by decide
theorem test_wf_no_channel : channelFits 0x10 = false ∧ wordValid 0x10 = false ∧ decode 0x10 = .invalid .noChannel := by decide
theorem test_wf_stray_channel :
    channelFits 0x81 = false ∧ wordValid 0x81 = false ∧ decode 0x81 = .invalid .strayChannel := by decide
theorem test_wf_checks_are_the_table :
    ∀ w : BitVec 8, wordValid w = (opcodeAssigned w && zClear w && channelFits w) := by decide

/-! ### The operations -/

/-- V1. -/
theorem test_rise_records_now : chan1 (exec (.rise .one) (stateAt 5000 1500 0 false)) = some (1500, 5000, false) := by decide
/-- V4. -/
theorem test_rise_while_ready : chan1 (exec (.rise .one) (stateAt 30000 1800 0 true)) = some (1800, 30000, true) := by decide
/-- V12. -/
theorem test_fall_across_wrap :
    chan1 (exec (.fall .one) (stateAt 0x00000500 1500 0xFFFFFF00 false)) = some (1536, 0, true) := by decide
/-- V8. -/
theorem test_fall_overrun : chan1 (exec (.fall .one) (stateAt 27000 1800 25000 true)) = some (1800, 25000, true) := by decide
/-- V17. -/
theorem test_rdf_ready : delivered (exec (.rdf .one) (stateAt 0 1800 0 true)) = some 1 := by decide
/-- V16. -/
theorem test_rdf_idle : delivered (exec (.rdf .one) (stateAt 0 1500 0 false)) = some 0 := by decide
/-- V18. -/
theorem test_rdw_width : delivered (exec (.rdw .one) (stateAt 0 1800 0 true)) = some 0x708 := by decide
/-- V20. -/
theorem test_rdw_full_width : delivered (exec (.rdw .one) (stateAt 0 4294967295 0 true)) = some 0xFFFFFFFF := by decide
/-- V21, with a start pending as in V23. -/
theorem test_clr_keeps_width_and_start :
    chan1 (exec (.clr .one) (stateAt 31000 1800 30000 true)) = some (1800, 30000, false) := by decide
/-- V28. -/
theorem test_tick_wraps : (afterOf (exec .tick (stateAt 4294967295 1500 0 false))).map State.now = some 0 := by decide
/-- V32, channel 1. -/
theorem test_rst_channel : chan1 (exec .rst (stateAt 123456 1800 0 true)) = some (1500, 0, false) := by decide
/-- V32, NOW. -/
theorem test_rst_keeps_now : (afterOf (exec .rst (stateAt 123456 1800 0 true))).map State.now = some 123456 := by decide

/-! ### Steps and ports -/

/-- The first word after reset is run: FALL 1 is a stale start (V7) and changes nothing. -/
theorem test_first_word_runs : chan1 (step (State.reset.withFetchWord 8 0x21)) = some (1500, 0, false) := by decide
/-- A pin going high is RISE (R72). -/
theorem test_pin_edge :
    chan1 (step ((stateAt 5000 1500 0 false).withPending [.pin .one true])) = some (1500, 5000, false) := by decide
/-- The consumer cannot reset the block (R153). -/
theorem test_port_ignores_reset :
    chan1 (step ((stateAt 5 1800 7 true).withPending [.command 0xF0])) = some (1800, 7, true) := by decide

/-! ### Pseudo-operations and trace syntax -/

/-- V25. -/
theorem test_take_ready : (afterOf (take .one (stateAt 0 1800 0 true))).map Taken.delivered = some [(.one, 1800)] := by decide
/-- The annotated line of R71. -/
theorem test_parse_annotated : parseLine "RDW 1 -> 1800   ; 0x51".toList = some (some (.op (.rdw .one) (some 1800))) := by decide
/-- A pseudo-operation of R73, with a comment. -/
theorem test_parse_adv : parseLine "ADV 1800 ; comment".toList = some (some (.adv 1800)) := by decide
/-- A blank line is ignored, a channel 4 is outside the syntax (R71). -/
theorem test_parse_blank_and_bad : parseLine "  ; only".toList = some none ∧ parseLine "RISE 4".toList = none := by decide

/-- Exactly one blank before the channel number (R71). -/
theorem test_parse_doubled_blank : parseLine "RISE  1".toList = none ∧ parseLine " RISE 1".toList = none := by decide
/-- An annotation beyond the register's range agrees with nothing (R71, V17). -/
theorem test_annotation_is_a_number : (Line.op (.rdf .one) (some 1)).agrees (stateAt 0 1800 0 true) = true ∧
    (Line.op (.rdf .one) (some 4294967297)).agrees (stateAt 0 1800 0 true) = false := by decide
/-- The example trace of R71, comments cut, with its annotations, from a launch state with NOW not 0. -/
theorem test_example_trace : ((parseTrace
    "RISE 1        ; 0x11\nTICK\nFALL 1\n\nRDF 1 -> 1    ; 0x41\nRDW 1 -> 1\nCLR 1".toList).map
      fun ls => linesAgree ls (State.launch 1000)) = some true := by decide

/-! ### Another width -/

/-- V28 at 8 bits: NOW counts modulo 2^TSW (R6). -/
theorem test_tick_wraps_at_8_bits :
    (afterOf (execAtWidth .tick (State.launch (255 : Word 8) : State 8))).map State.now = some 0 := by decide

/-! ### Another number of channels -/

/-- With two channels the third has no word (R67, R17). -/
theorem test_decode_two_channels :
    decode 0x12 2 = .op (.rise { idx := 1 }) ∧ decode 0x13 2 = .invalid .noChannel ∧ Channel.all 2 = [{ idx := 0 }, { idx := 1 }] := by
  decide

/-! ### The reference consumer -/

/-- An accepted FALL 1 between RDF 1, which returned 0, and RDF 2 waits for the next cycle (R87, R104). -/
theorem test_edge_inside_poll :
    (afterOf (System.turns [.consumer, .edge .one false]
        { pwt := stateAt 6800 1500 5000 false, env := Env.reset, pos := .readFlag .one })).map
      (fun y => (y.pwt.F .one, y.pwt.W .one, y.pos)) = some (true, 1800, .readFlag .two) := by decide
/-- The nominal wait, of the order of 50 000 TICKs (R103). -/
theorem test_nominal_pause : nominalPause.length = 50000 := List.length_replicate
/-- EV1, the row 1300, a tie. -/
theorem test_dimmer_tie :
    dimmer .truncate 1300 = 76 ∧ dimmer .nearestHalfUp 1300 = 77 ∧ dimmer .nearestHalfEven 1300 = 76 := by decide
/-- EV1, the rows 999 and 21400. -/
theorem test_dimmer_clamps : dimmer .nearestHalfUp 999 = 0 ∧ dimmer .truncate 21400 = 255 := by decide
/-- EV2. -/
theorem test_switch_boundary : switchOn 1600 = false ∧ switchOn 1601 = true := by decide
/-- EV3. -/
theorem test_trigger_boundary : triggers 1700 = false ∧ triggers 1701 = true := by decide
/-- S8, R99: all six colours. -/
theorem test_colour_table : [0, 1, 2, 3, 4, 5].map colour =
    [(255, 0, 0), (0, 255, 0), (0, 0, 255), (255, 255, 0), (0, 255, 255), (255, 0, 255)] := by decide

/-! ### Witnesses: a concrete case that meets the hypotheses of each statement -/

/-- AcceptedFallPublishesDelta (V5); FallIgnoredUnlessBothGuards, the guard met. -/
theorem wit_accepted_fall : (stateAt 6800 1500 5000 false).S .one ≠ 0 ∧ (stateAt 6800 1500 5000 false).F .one = false := by decide

/-- FallIgnoredUnlessBothGuards, ignored for both reasons (V10). -/
theorem wit_ignored_fall : (stateAt 40000 1800 0 true).S .one = 0 ∧ (stateAt 40000 1800 0 true).F .one = true := by decide

/-- DroppedFallLeavesStartPending, ClearAndFallDoNotCommute, ClearBeforeReadDuplicates (V37). -/
theorem wit_overrun : (stateAt 27000 1800 25000 true).S .one ≠ 0 ∧ (stateAt 27000 1800 25000 true).F .one = true := by decide

/-- ReservedWordsAreInvalid: the first two clauses (the highest word of each kind). -/
theorem wit_reserved_words : fieldOp 0xE3 ∈ ([0x0, 0x3, 0x7, 0x9, 0xA, 0xB, 0xC, 0xD, 0xE] : List (BitVec 4)) ∧
    fieldZ 0xFF ≠ 0 := by decide

/-- ValidWordNamesItsDomain, and the word of StepRunsDecodedWord, ValidWordsAlwaysComplete. -/
theorem wit_step_word : ((stateAt 1 1500 0 false).presentWord 0x61).pending = .word 0x61 :: [] ∧
    decode 0x61 = .op (.clr .one) := by decide

/-- PortEventsAreOperations: each of the four clauses. -/
theorem wit_port_events : ∀ e ∈ [Event.pin .one true, .pin .three false, .reset, .microsecond],
    ((stateAt 1 1500 0 false).withPending [e]).pending = e :: [] := by decide

/-- ConsumerPortAcceptsOnlyConsumerWords, first clause: the three consumer operations at the port. -/
theorem wit_port_accepts : ((stateAt 1 1500 0 false).withPending [.command 0x43]).pending = .command 0x43 :: [] ∧
    decode 0x43 = .op (.rdf .three) ∧ decode 0x51 = .op (.rdw .one) ∧ decode 0x62 = .op (.clr .two) := by decide

/-- ConsumerPortAcceptsOnlyConsumerWords, second clause, and InvalidWordRefusedOrIgnored, third clause: a valid word of the
producer at the port. -/
theorem wit_port_ignores_producer : ((stateAt 1 1500 0 false).withPending [.command 0x13]).pending = .command 0x13 :: [] ∧
    decode 0x13 = .op (.rise .three) ∧ wordDomain 0x13 ≠ .consumer ∧
    ∀ n, decode 0x13 ≠ .op (.rdf n) ∧ decode 0x13 ≠ .op (.rdw n) ∧ decode 0x13 ≠ .op (.clr n) := by
  refine ⟨by decide, by decide, by decide, fun n => ?_⟩
  induction n using Channel.threeCases <;> decide

/-- InvalidWordRefusedOrIgnored, first and second clauses. -/
theorem wit_invalid_word : decode 0x40 = .invalid .noChannel ∧
    ((stateAt 1 1500 0 false).withPending [.word 0x40]).pending = .word 0x40 :: [] ∧
    ((stateAt 1 1500 0 false).withPending [.command 0x40]).pending = .command 0x40 :: [] := by decide

/-- IdleStepChangesNothing. -/
theorem wit_idle : (stateAt 1 1500 0 false).pending = [] := rfl

/-- WellFormedRunsNeverStop. -/
theorem wit_well_formed_run : ((stateAt 1 1500 0 false).withPending [.word 0x11, .command 0x00]).traceWf = true := by decide

/-- StartWrittenOnlyByProducer (RISE 1); OnlyListedOperationsWrite and AgentsKeepToTheirDomain, for an edge unit. -/
theorem wit_start_written : ∃ t, exec (.rise .one) (stateAt 5000 1500 0 false) = .next t ∧
    t.S .one ≠ (stateAt 5000 1500 0 false).S .one ∧ (Instr.rise .one).agent = .edge .one := by
  exact ⟨_, rfl, by decide, rfl⟩

/-- FlagTransitionsHaveOneCause, first clause (V5), and WidthStableWhileFlagSet, first clause. -/
theorem wit_flag_set : ∃ t, exec (.fall .one) (stateAt 6800 1500 5000 false) = .next t ∧
    (stateAt 6800 1500 5000 false).F .one = false ∧ t.F .one = true ∧
    t.W .one ≠ (stateAt 6800 1500 5000 false).W .one ∧ Instr.fall .one ≠ .rst := by
  exact ⟨_, rfl, by decide, by decide, by decide, by decide⟩

/-- FlagTransitionsHaveOneCause, second clause, by CLR (V21) and by RST (V34); AgentsKeepToTheirDomain, consumer and host. -/
theorem wit_flag_cleared : (∃ t, exec (.clr .one) (stateAt 0 1800 0 true) = .next t ∧ t.F .one = false) ∧
    (∃ t, exec .rst (stateAt 0 1800 0 true) = .next t ∧ t.F .one = false) ∧ (stateAt 0 1800 0 true).F .one = true ∧
    (Instr.clr .one).agent = .consumer ∧ (Instr.rst : Instr).agent = .host := by
  exact ⟨⟨_, rfl, by decide⟩, ⟨_, rfl, by decide⟩, by decide, rfl, rfl⟩

/-- AgentsKeepToTheirDomain, the timebase; ChannelsAreIndependent, the clause about TICK. -/
theorem wit_timebase : ∃ t, exec .tick (stateAt 5000 1500 0 false) = .next t ∧ (Instr.tick : Instr).agent = .timebase := ⟨_, rfl, rfl⟩

/-- WidthStableWhileFlagSet, second clause: an overrun, a rising edge and a tick while the flag is set (V8). -/
theorem wit_window_run : (stateAt 27000 1800 25000 true).F .one = true ∧
    Instr.clr .one ∉ [Instr.fall .one, .tick, .rise .one] ∧ Instr.rst ∉ [Instr.fall .one, .tick, .rise .one] ∧
    ∃ t, runOps [.fall .one, .tick, .rise .one] (stateAt 27000 1800 25000 true) = .next t := by
  exact ⟨by decide, by decide, by decide, _, rfl⟩

/-- WindowDeliversPublishedWidth (V5, then the same operations). -/
theorem wit_published_window : ∃ a, (stateAt 6800 1500 5000 false).S .one ≠ 0 ∧
    (stateAt 6800 1500 5000 false).F .one = false ∧ exec (.fall .one) (stateAt 6800 1500 5000 false) = .next a ∧
    Instr.clr .one ∉ [Instr.fall .one, .tick, .rise .one] ∧ Instr.rst ∉ [Instr.fall .one, .tick, .rise .one] := by
  exact ⟨_, by decide, by decide, rfl, by decide, by decide⟩

/-- ResultsDependOnlyOnListedReads, both parts: two states that agree on all that FALL 1, RDF 1, RDW 1, RISE 1 and TICK read, and differ on
channel 2. -/
theorem wit_agreeing_states :
    let a := stateAt 6800 1500 5000 false
    let b := a.setW .two 977
    a ≠ b ∧ a.S .one = b.S .one ∧ a.F .one = b.F .one ∧ a.W .one = b.W .one ∧ a.now = b.now := by decide

/-- ReadsRepeatAndClearIsIdempotent, the clause on CLR 1: a FALL 1 between two CLR 1 that is a stale start (V7). -/
theorem wit_second_clear : ∀ (js ks : List Instr) (a : State), [.fall .one] = js ++ .fall .one :: ks →
    runOps (.clr .one :: js) (stateAt 0 1800 0 true) = .next a → a.S .one = 0 ∨ a.F .one = true := by
  intro js ks a h ha
  cases js with
  | nil => cases ha; exact .inl (by decide)
  | cons j js => simp at h

/-- ChannelsAreIndependent: operations of different channels (V39), states that agree on one channel, a consumer operation,
and a result that differs on two channels, which is RST's. -/
theorem wit_channels : (Instr.fall .one).channel = some .one ∧ (Instr.fall .two).channel = some .two ∧
    Channel.one ≠ .two ∧ (Instr.rdf .one).agent = .consumer ∧
    ∃ t, exec .rst ((stateAt 1 1800 0 true).setW .two 977) = .next t ∧
      ¬ t.sameChan ((stateAt 1 1800 0 true).setW .two 977) .one ∧
      ¬ t.sameChan ((stateAt 1 1800 0 true).setW .two 977) .two := by
  refine ⟨rfl, rfl, by decide, rfl, _, rfl, ?_, ?_⟩ <;> unfold State.sameChan <;> decide

/-- TimebaseCountsTicks, the clause without a wrap, at its boundary. -/
theorem wit_no_wrap : (stateAt 4294967294 1500 0 false).now.toNat + [(Instr.tick : Instr)].count .tick < 2 ^ 32 := by decide

/-- PublishedWidthCountsTicksSinceRise: a whole pulse of one microsecond. -/
theorem wit_measured_interval : ∃ a t, Instr.rise .one ∉ [Instr.tick] ∧ Instr.rst ∉ [(Instr.tick : Instr)] ∧
    runOps (.rise .one :: [.tick]) (stateAt 5000 1500 0 false) = .next a ∧ a.S .one ≠ 0 ∧ a.F .one = false ∧
    exec (.fall .one) a = .next t := by
  exact ⟨_, _, by decide, by decide, rfl, by decide, by decide, rfl⟩

/-- WholePulseMeasuresItsLength, at the longest pulse. -/
theorem wit_whole_pulse : (stateAt 5000 1500 0 false).F .one = false ∧ (stateAt 5000 1500 0 false).now ≠ 0 ∧
    4294967295 < 2 ^ 32 := by decide

/-- PulseStampedZeroIsLost (V3). -/
theorem wit_now_zero : (stateAt 0 1500 0 false).now = 0 := rfl

/-- OneEdgeDirectionNeverPublishes: both clauses (V7). -/
theorem wit_one_direction : (stateAt 7000 1500 0 false).F .one = false ∧ Instr.fall .one ∉ [Instr.rise .one, .tick] ∧
    Instr.rise .one ∉ [Instr.fall .one, .tick] ∧ (stateAt 7000 1500 0 false).S .one = 0 := by decide

/-- IgnoredFallsMayBeDeleted: an overrun after a rising edge. -/
theorem wit_deleted_fall : ∃ a, runOps [.rise .one] (stateAt 25000 1800 0 true) = .next a ∧ a.F .one = true :=
  ⟨_, rfl, by decide⟩

/-- EverySampleDeliveredExactlyOnce, the step: CLR 1 at the end of a round on a waiting 1800 (V25). -/
theorem wit_sound_ledger : ∃ l l' : Ledger, l.Sound .one (stateAt 0 1800 0 true) ∧ l.phase = .hasWidth 1800 ∧
    ∃ t, exec (.clr .one) (stateAt 0 1800 0 true) = .next t ∧
      l.next .one (.clr .one) (stateAt 0 1800 0 true) t = some l' :=
  ⟨{ phase := .hasWidth 1800, published := [1800], delivered := [] }, _,
    ⟨by decide, fun _ => by decide, fun v h => by cases h; decide⟩, rfl, _, rfl, rfl⟩

/-- EverySampleDeliveredExactlyOnce, the runs: a whole round, from a launch state, that follows the protocol. -/
theorem wit_protocol_run : ∃ t l, watch .one [.rise .one, .tick, .fall .one, .rdf .one, .rdw .one, .clr .one, .rdf .one]
    (State.launch 1000) Ledger.empty = some (t, l) ∧ l.delivered = [1] := by
  exact ⟨_, _, rfl, by decide⟩

/-- EverySampleDeliveredExactlyOnce is about fewer runs than there are: clearing before reading breaks the protocol (P7). -/
theorem wit_protocol_broken : watch .one [.rise .one, .tick, .fall .one, .rdf .one, .clr .one] (State.launch 1000)
    Ledger.empty = none := by decide

/-- WaitingSampleCanAlwaysBeTaken (V25). -/
theorem wit_waiting_sample : (stateAt 0 1800 0 true).F .one = true ∧ Ledger.empty.phase = .waiting := by decide

/-- PollTakesEveryWaitingSample: another order of the channels. -/
theorem wit_other_order : [Channel.three, .one, .two].Perm Channel.all := by decide

/-- StepKeepsTraceAndNeutralWidths: a launch state with a rising edge to come. -/
theorem wit_invariant : ((State.launch 5).withPending [.word 0x11]).traceWf = true ∧
    ((State.launch 5).withPending [.word 0x11]).unreadNeutral ∧
    ∃ t, step ((State.launch 5).withPending [.word 0x11]) = .next t := by
  refine ⟨by decide, fun _ n _ => ?_, _, rfl⟩
  simp

/-- DimmerScalesAndClamps: the boundaries 1000 and 2000, which fall under two clauses each, that agree (EV1). -/
theorem wit_dimmer_boundaries : (1000 : Word).toNat ≤ 1000 ∧ 2000 ≤ (2000 : Word).toNat ∧
    ∀ m ∈ [RoundMode.truncate, .nearestHalfUp, .nearestHalfEven], dimmer m 1000 = 0 ∧ dimmer m 2000 = 255 := by decide

/-- TriggerAdvancesAboveThreshold, both clauses at the boundary, and SixTriggersReturnToStart (EV3). -/
theorem wit_trigger : (1700 : Word).toNat ≤ 1700 ∧ 1700 < (1701 : Word).toNat ∧ Env.reset.idx = 0 ∧
    (∀ p ∈ [(1701 : Word), 1701, 1701, 1701, 1701, 1701], 1700 < p.toNat) ∧
    (Env.reset.process .three 1701).idx ≠ Env.reset.idx := by
  refine ⟨by decide, by decide, rfl, by simp, ?_⟩
  show (if triggers 1701 then Env.reset.advanceColour else Env.reset).idx ≠ 0
  rw [test_trigger_boundary.2]
  decide

/-- CycleProcessesWaitingSamples, the last clause, and every branch of the colour clause: a waiting sample of channel 3 at the
boundary, above it, and none. -/
theorem wit_cycle : ({ System.launch 5 with pos := .pause } : System).pos = .pause ∧
    ((State.launch (5 : Word)).setF .three true).F .three = true ∧ 1700 < (1701 : Word).toNat ∧ ¬ 1700 < (1700 : Word).toNat ∧
    (State.launch (5 : Word)).F .three = false := by decide

/-- EveryWidthCountsModulo: 16 bits, five channels and a pulse to come on channel 5; the boundaries 1, 11 and 3. -/
theorem wit_width : (State.launch (7 : Word 16) : State 16 5).F { idx := 4 } = false ∧
    (State.launch (7 : Word 16) : State 16 5).now ≠ 0 ∧ ({ idx := 0 } : Channel 5) ≠ { idx := 4 } ∧ 0 < 1 ∧ 11 ≤ 11 ∧ 3 ≤ 3 := by
  decide

/-- LoopRunsForeverBesideTheProducer: ten moves of the consumer among other agents' turns, and such a turn. -/
theorem wit_turns : 10 ≤ (Turn.microsecond :: .edge .one true :: List.replicate 10 Turn.consumer).count .consumer ∧
    Turn.edge .one true ≠ .consumer := by decide

/-- LoopActsOnEverySampleOnce, the step: the consumer reads the flag of channel 1 at launch. -/
theorem wit_tracking : ∃ l z, Ledger.Tracks l .one (System.launch 5) ∧ Turn.consumer ≠ .reset ∧
    (System.launch 5).turn .consumer = .next z :=
  ⟨Ledger.empty, _, ⟨⟨rfl, fun h => absurd rfl h, fun v h => by cases h⟩, rfl, rfl⟩, by decide,
    (turn_consumer _).trans (consume_idle (y := System.launch 5) (n := .one) rfl (by decide))⟩

/-- LoopActsOnEverySampleOnce, the runs: a pulse of one microsecond while the consumer waits at its first flag. -/
theorem wit_loop_run : Turn.reset ∉ [Turn.edge .one true, .microsecond, .edge .one false] ∧
    ∃ z, System.turns [.edge .one true, .microsecond, .edge .one false] (System.launch 5) = .next z ∧ z.pwt.F .one = true :=
  ⟨by decide, _, rfl, by decide⟩

/-- SpelledTraceParsesBack, the second clause. -/
theorem wit_channel_operation : (Instr.clr .three).channel = some .three := rfl
end

