-- ==== Sys2Proof/Proofs/Scope.lean ====
section
/-!
PROOFS. The named parameters of 00_scope.md: the value of the width registers after reset (R10).
-/

namespace Sys2Proof.Machine

open State

/-- Settles O9: the launch state and RST both put every channel at its reset registers, the launch state for whatever
NOW_RESET is and RST from whatever state it finds. -/
theorem neutralWidthAfterReset : Obligations.NeutralWidthAfterReset := by
  intro n
  constructor
  · exact W_launch n Config.nowReset
  · intro s
    exact ⟨s.resetChannels, exec_rst s, W_resetChannels s n⟩

end Sys2Proof.Machine
end

