-- ==== Sys2Proof/Proofs/State.lean ====
section
/-!
PROOFS. What may write which register of a channel (10_state.md R30 to R32, R36), and the control loop beside the other agents
(R39, 43_consumer_environment.md section 1).
-/

namespace Sys2Proof.Machine

open State

/-! ### One channel under one operation -/

section SameChan

variable {TSW NCH : Nat} {a b c : State TSW NCH} {n : Channel NCH}

@[simp] theorem sameChan_refl (a : State TSW NCH) (n : Channel NCH) : a.sameChan a n := ⟨rfl, rfl, rfl⟩

theorem sameChan_symm (h : a.sameChan b n) : b.sameChan a n := by
  obtain ⟨hw, hs, hf⟩ := h
  exact ⟨hw.symm, hs.symm, hf.symm⟩

theorem sameChan_trans (hab : a.sameChan b n) (hbc : b.sameChan c n) : a.sameChan c n := by
  obtain ⟨hw, hs, hf⟩ := hab
  obtain ⟨hw', hs', hf'⟩ := hbc
  exact ⟨hw.trans hw', hs.trans hs', hf.trans hf'⟩

end SameChan

/-- Every operation goes on, from every state (R107). -/
theorem exec_goes_on (i : Instr) (s : State) : ∃ t, exec i s = .next t := by
  cases i with
  | fall n => exact ⟨_, exec_fall n s⟩
  | rise n | rdf n | rdw n | clr n | tick | rst => exact ⟨_, rfl⟩

/-- Everything one operation can do to the registers of one channel, guards included: exec_cases, seen from channel n. -/
theorem exec_chan_cases {i : Instr} {s t : State} (h : exec i s = .next t) (n : Channel) :
    t.sameChan s n ∨
    (i = .rise n ∧ t.W n = s.W n ∧ t.S n = s.now ∧ t.F n = s.F n) ∨
    (i = .fall n ∧ s.S n ≠ 0 ∧ s.F n = false ∧ t.W n = s.now - s.S n ∧ t.S n = 0 ∧ t.F n = true) ∨
    (i = .clr n ∧ t.W n = s.W n ∧ t.S n = s.S n ∧ t.F n = false) ∨
    (i = .rst ∧ t.W n = 1500 ∧ t.S n = 0 ∧ t.F n = false) := by
  obtain ⟨m, rfl, rfl⟩ | ⟨m, rfl, hs, hf, rfl⟩ | ⟨m, rfl, -, rfl⟩ | ⟨m, rfl, rfl⟩ | ⟨m, rfl, rfl⟩ | ⟨m, rfl, rfl⟩ |
    ⟨rfl, rfl⟩ | ⟨rfl, rfl⟩ := exec_cases h
  case inl => -- RISE m
    by_cases hm : n = m
    · subst hm; simp
    · simp [sameChan, hm]
  case inr.inl => -- FALL m, accepted
    by_cases hm : n = m
    · subst hm; exact .inr (.inr (.inl ⟨rfl, hs, hf, by simp⟩))
    · simp [sameChan, hm]
  case inr.inr.inr.inr.inr.inl => -- CLR m
    by_cases hm : n = m
    · subst hm; simp
    · simp [sameChan, hm]
  all_goals simp [sameChan]

/-- An operation that changes a register of channel n is an operation with channel n, or RST. -/
theorem exec_sameChan_or {i : Instr} {s t : State} (h : exec i s = .next t) (n : Channel) :
    t.sameChan s n ∨ i.channel = some n ∨ i = .rst := by
  obtain hsame | ⟨rfl, -⟩ | ⟨rfl, -⟩ | ⟨rfl, -⟩ | ⟨rfl, -⟩ := exec_chan_cases h n
  · exact .inl hsame
  all_goals simp [Instr.channel]

/-- Only TICK writes NOW. -/
theorem exec_now {i : Instr} {s t : State} (h : exec i s = .next t) (hi : i ≠ .tick) : t.now = s.now := by
  obtain ⟨n, -, rfl⟩ | ⟨n, -, -, -, rfl⟩ | ⟨n, -, -, rfl⟩ | ⟨n, -, rfl⟩ | ⟨n, -, rfl⟩ | ⟨n, -, rfl⟩ | ⟨rfl, rfl⟩ |
    ⟨-, rfl⟩ := exec_cases h
  case inr.inr.inr.inr.inr.inr.inl => exact absurd rfl hi
  all_goals simp

/-! ### The invariants of one channel -/

/-- Settles O25: exec_chan_cases lists the operations that change a register of channel n, and of these CLR n keeps S[n]. -/
theorem startWrittenOnlyByProducer : Obligations.StartWrittenOnlyByProducer := by
  intro i s t n h hne
  obtain ⟨-, hs, -⟩ | ⟨rfl, -⟩ | ⟨rfl, hs, hf, -⟩ | ⟨-, -, hs, -⟩ | ⟨rfl, -⟩ := exec_chan_cases h n
  · exact absurd hs hne
  · exact .inl rfl
  · exact .inr (.inl ⟨rfl, hs, hf⟩)
  · exact absurd hs hne
  · exact .inr (.inr rfl)

/-- Settles O26: of the operations that change a register of channel n, RISE n keeps F[n], FALL n sets it under its guard, and
CLR n and RST clear it. -/
theorem flagTransitionsHaveOneCause : Obligations.FlagTransitionsHaveOneCause := by
  intro i s t n h
  refine ⟨fun h0 h1 => ?_, fun h1 h0 => ?_, fun hi => ?_⟩
  · obtain ⟨-, -, hf⟩ | ⟨-, -, -, hf⟩ | ⟨rfl, hs, -⟩ | ⟨-, -, -, hf⟩ | ⟨-, -, -, hf⟩ := exec_chan_cases h n
    case inr.inr.inl => exact ⟨rfl, hs⟩
    all_goals simp_all
  · obtain ⟨-, -, hf⟩ | ⟨-, -, -, hf⟩ | ⟨-, -, hf, -⟩ | ⟨rfl, -⟩ | ⟨rfl, -⟩ := exec_chan_cases h n
    case inr.inr.inr.inl => exact .inl rfl
    case inr.inr.inr.inr => exact .inr rfl
    all_goals simp_all
  · subst hi
    cases h
    exact F_resetChannels s n

/-- The data-stability guard: outside a reset, W[n] is written only by FALL n, which finds F[n] = 0 (R32). -/
theorem exec_W_cases {i : Instr} {s t : State} (h : exec i s = .next t) (n : Channel) :
    t.W n = s.W n ∨ (i = .fall n ∧ s.F n = false) ∨ i = .rst := by
  obtain ⟨hw, -⟩ | ⟨-, hw, -⟩ | ⟨rfl, -, hf, -⟩ | ⟨-, hw, -⟩ | ⟨rfl, -⟩ := exec_chan_cases h n
  · exact .inl hw
  · exact .inl hw
  · exact .inr (.inl ⟨rfl, hf⟩)
  · exact .inl hw
  · exact .inr (.inr rfl)

/-- While F[n] is set, an operation other than CLR n and RST keeps both W[n] and F[n]. -/
theorem exec_keeps_ready {i : Instr} {s t : State} {n : Channel} (h : exec i s = .next t) (hf : s.F n = true)
    (hclr : i ≠ .clr n) (hrst : i ≠ .rst) : t.W n = s.W n ∧ t.F n = true := by
  obtain ⟨-, hclears, -⟩ := flagTransitionsHaveOneCause i s t n h
  constructor
  · obtain hw | ⟨-, h0⟩ | hi := exec_W_cases h n
    · exact hw
    · simp [hf] at h0
    · exact absurd hi hrst
  · by_contra ht
    obtain hi | hi := hclears hf (by simpa using ht)
    · exact hclr hi
    · exact hrst hi

/-- Settles O27: the step form is exec_W_cases; the run form carries "W[n] as at the start, F[n] set" through exec_keeps_ready. -/
theorem widthStableWhileFlagSet : Obligations.WidthStableWhileFlagSet := by
  constructor
  · intro i s t n h hne hrst
    obtain hw | hfall | hi := exec_W_cases h n
    · exact absurd hw hne
    · exact hfall
    · exact absurd hi hrst
  · intro n is s t hf hclr hrst hrun
    refine runOps_keeps (P := fun x => x.W n = s.W n ∧ x.F n = true) hrun ⟨rfl, hf⟩ ?_
    rintro i hi a b ⟨haw, haf⟩ hab
    have hkept := exec_keeps_ready hab haf (ne_of_mem_of_not_mem hi hclr) (ne_of_mem_of_not_mem hi hrst)
    exact ⟨hkept.1.trans haw, hkept.2⟩

/-! ### Two channels -/

theorem ne_tick_of_channel {i : Instr} {n : Channel} (hi : i.channel = some n) : i ≠ .tick := by
  rintro rfl
  cases hi

theorem ne_rst_of_channel {i : Instr} {n : Channel} (hi : i.channel = some n) : i ≠ .rst := by
  rintro rfl
  cases hi

/-- An operation with channel n writes no register of another channel. -/
theorem exec_sameChan_other {i : Instr} {n m : Channel} {s t : State} (hi : i.channel = some n) (hm : m ≠ n)
    (h : exec i s = .next t) : t.sameChan s m := by
  obtain hsame | hch | hrst := exec_sameChan_or h m
  · exact hsame
  · exact absurd (Option.some_inj.1 (hch.symm.trans hi)) hm
  · exact absurd hrst (ne_rst_of_channel hi)

/-- An operation with channel n reads only channel n and NOW: what it does to channel n, and what the consumer gets, are the same
from two states that agree there. -/
theorem exec_own_chan_congr {i : Instr} {n : Channel} {a b c d : State} (hi : i.channel = some n) (hab : a.sameChan b n)
    (hnow : a.now = b.now) (hc : exec i a = .next c) (hd : exec i b = .next d) :
    c.sameChan d n ∧ (i.agent = .consumer → c.cRdata = d.cRdata) := by
  obtain ⟨hw, hs, hf⟩ := hab
  cases i with
  | rise m => cases hi; cases hc; cases hd; simp [sameChan, Instr.agent, *]
  | fall m =>
    cases hi
    rw [exec_fall] at hc hd
    rw [accepts_congr hs hf] at hc
    cases hc
    cases hd
    cases b.accepts n <;> simp [sameChan, Instr.agent, *]
  | rdf m => cases hi; cases hc; cases hd; simp [sameChan, *]
  | rdw m => cases hi; cases hc; cases hd; simp [sameChan, *]
  | clr m => cases hi; cases hc; cases hd; simp [sameChan, *]
  | tick => cases hi
  | rst => cases hi

/-- Channel n after an operation of its own is the same whether an operation with another channel comes after or before it. -/
theorem exec_swap_sameChan {i j : Instr} {n m : Channel} {s a b t u : State} (hi : i.channel = some n)
    (hj : j.channel = some m) (hnm : n ≠ m) (hsa : exec i s = .next a) (hat : exec j a = .next t)
    (hsb : exec j s = .next b) (hbu : exec i b = .next u) : t.sameChan u n := by
  have hsb' : s.sameChan b n := sameChan_symm (exec_sameChan_other hj hnm hsb)
  have hnow : s.now = b.now := (exec_now hsb (ne_tick_of_channel hj)).symm
  have hau : a.sameChan u n := (exec_own_chan_congr hi hsb' hnow hsa hbu).1
  exact sameChan_trans (exec_sameChan_other hj hnm hat) hau

/-- Operations on different channels commute on the ten registers. -/
theorem runOps_pair_comm {i j : Instr} {n m : Channel} (s : State) (hi : i.channel = some n) (hj : j.channel = some m)
    (hnm : n ≠ m) : ∃ t u, runOps [i, j] s = .next t ∧ runOps [j, i] s = .next u ∧ t.sameRegs u := by
  obtain ⟨a, hsa⟩ := exec_goes_on i s
  obtain ⟨t, hat⟩ := exec_goes_on j a
  obtain ⟨b, hsb⟩ := exec_goes_on j s
  obtain ⟨u, hbu⟩ := exec_goes_on i b
  refine ⟨t, u, by simp [hsa, hat], by simp [hsb, hbu], fun k => ?_, ?_⟩
  · show t.sameChan u k
    by_cases hkn : k = n
    · subst hkn
      exact exec_swap_sameChan hi hj hnm hsa hat hsb hbu
    · by_cases hkm : k = m
      · subst hkm
        exact sameChan_symm (exec_swap_sameChan hj hi hnm.symm hsb hbu hsa hat)
      · have hts : t.sameChan s k := sameChan_trans (exec_sameChan_other hj hkm hat) (exec_sameChan_other hi hkn hsa)
        have hus : u.sameChan s k := sameChan_trans (exec_sameChan_other hi hkn hbu) (exec_sameChan_other hj hkm hsb)
        exact sameChan_trans hts (sameChan_symm hus)
  · have hit := ne_tick_of_channel hi
    have hjt := ne_tick_of_channel hj
    calc t.now = a.now := exec_now hat hjt
      _ = s.now := exec_now hsa hit
      _ = b.now := (exec_now hsb hjt).symm
      _ = u.now := (exec_now hbu hit).symm

/-- A consumer operation neither reads nor writes NOW, and TICK nothing else, so they commute. -/
theorem runOps_consumer_tick_comm {i : Instr} (s : State) (hi : i.agent = .consumer) :
    runOps [i, .tick] s = runOps [.tick, i] s := by
  cases i with
  | rdf n | rdw n | clr n => rfl
  | rise n | fall n | tick | rst => cases hi

/-- Settles O31: no write to another channel, no read of one, hence commutation; TICK touches no channel, and an operation that
changes two channels has neither for its own, so it is RST. -/
theorem channelsAreIndependent : Obligations.ChannelsAreIndependent := by
  refine ⟨fun i n m s t hi hm h => exec_sameChan_other hi hm h, fun i n a b hi hab hnow => ?_, fun s t m h => ?_,
    fun i j n m s hi hj hnm => runOps_pair_comm s hi hj hnm, fun i s hi => runOps_consumer_tick_comm s hi,
    fun i s t n m h hnm hn hm => ?_⟩
  · obtain ⟨c, hc⟩ := exec_goes_on i a
    obtain ⟨d, hd⟩ := exec_goes_on i b
    exact ⟨c, d, hc, hd, exec_own_chan_congr hi hab hnow hc hd⟩
  · cases h
    exact ⟨rfl, rfl, rfl⟩
  · obtain hsame | hin | hrst := exec_sameChan_or h n
    · exact absurd hsame hn
    · exact absurd (exec_sameChan_other hin hnm.symm h) hm
    · exact hrst

/-! ### The control loop beside the other agents -/

/-- A turn of another agent goes on: its operation on PWT, and nothing of the consumer. -/
theorem turn_other_goes_on {u : Turn} (y : System) (hu : u ≠ .consumer) :
    ∃ i s, u.operation y.pos = some i ∧ exec i y.pwt = .next s ∧ y.turn u = .next { y with pwt := s } := by
  obtain ⟨i, hi, hturn⟩ := turn_other (y := y) hu
  obtain ⟨s, hs⟩ := exec_goes_on i y.pwt
  exact ⟨i, s, hi, hs, by rw [hturn, hs, andThen_next]⟩

/-- Every turn goes on, from every system. -/
theorem turn_goes_on (u : Turn) (y : System) : ∃ z, y.turn u = .next z := by
  by_cases hu : u = .consumer
  · subst hu
    obtain ⟨n, -, -, h⟩ | ⟨n, -, -, h⟩ | ⟨n, -, h⟩ | ⟨n, p, -, h⟩ | ⟨-, h⟩ := consume_cases y <;> exact ⟨_, h⟩
  · obtain ⟨i, s, -, -, h⟩ := turn_other_goes_on y hu
    exact ⟨_, h⟩

/-- What a turn does to PWT is the run of its operation, or of none. -/
theorem runOps_turn_operation {u : Turn} {y z : System} (h : y.turn u = .next z) :
    runOps (u.operation y.pos).toList y.pwt = .next z.pwt := by
  have hop := turn_operation h
  cases ho : u.operation y.pos with
  | some i =>
    rw [ho] at hop
    simp [show exec i y.pwt = .next z.pwt from hop]
  | none =>
    rw [ho] at hop
    simp [show z.pwt = y.pwt from hop]

/-- The turns never stop, and PWT makes the run of their operations. -/
theorem turns_run_trace (us : List Turn) (y : System) :
    ∃ z, System.turns us y = .next z ∧ runOps (System.trace us y) y.pwt = .next z.pwt := by
  induction us generalizing y with
  | nil => exact ⟨y, rfl, rfl⟩
  | cons u us ih =>
    obtain ⟨x, hx⟩ := turn_goes_on u y
    obtain ⟨z, hz, hrun⟩ := ih x
    refine ⟨z, by rw [turns_cons, hx, andThen_next, hz], ?_⟩
    rw [trace_cons hx, runOps_append, runOps_turn_operation hx, andThen_next, hrun]

/-- How many moves of the consumer, at most, bring the loop from this position to its next wait: three for each round still to
come (R87, R88), and one more from the wait itself. -/
def LoopPos.movesToPause : LoopPos → Nat
  | .readFlag n => 12 - 3 * n.number
  | .readWidth n => 11 - 3 * n.number
  | .clear n _ => 10 - 3 * n.number
  | .pause => 10

theorem movesToPause_pos (pos : LoopPos) : 0 < pos.movesToPause := by
  cases pos with
  | readFlag n | readWidth n | clear n p =>
    have := n.number_bounds
    simp only [LoopPos.movesToPause]
    omega
  | pause => decide

theorem movesToPause_le_ten (pos : LoopPos) : pos.movesToPause ≤ 10 := by
  cases pos with
  | readFlag n | readWidth n | clear n p =>
    have := n.number_bounds
    simp only [LoopPos.movesToPause]
    omega
  | pause => decide

/-- A round's end is the wait, or nearer to it than every position of the round. -/
theorem afterRound_nearer (n : Channel) :
    LoopPos.afterRound n = .pause ∨ (LoopPos.afterRound n).movesToPause < 10 - 3 * n.number := by
  induction n using Channel.threeCases with
  | one | two => right; decide
  | three => exact .inl rfl

/-- Each move of the consumer ends the cycle or brings its end nearer. -/
theorem consume_nearer {y z : System} (h : y.consume = .next z) :
    z.pos = .pause ∨ z.pos.movesToPause < y.pos.movesToPause := by
  obtain ⟨n, hp, -, hc⟩ | ⟨n, hp, -, hc⟩ | ⟨n, hp, hc⟩ | ⟨n, p, hp, hc⟩ | ⟨hp, hc⟩ := consume_cases y <;>
    rw [hc] at h <;> cases h <;> rw [hp]
  · have := n.number_bounds
    right
    simp only [LoopPos.movesToPause]
    omega
  · exact (afterRound_nearer n).imp_right fun hlt => hlt.trans_le (Nat.sub_le_sub_right (by decide) _)
  · have := n.number_bounds
    right
    simp only [LoopPos.movesToPause]
    omega
  · exact afterRound_nearer n
  · right
    show 12 - 3 * Channel.one.number < 10
    decide

/-- With enough moves of the consumer among them, whatever falls between, the turns pass through the end of a cycle. -/
theorem turns_reach_pause (us : List Turn) (y : System) (h : y.pos.movesToPause ≤ us.count .consumer) :
    ∃ vs ws z, us = vs ++ ws ∧ .consumer ∈ vs ∧ System.turns vs y = .next z ∧ z.pos = .pause := by
  induction us generalizing y with
  | nil => exact absurd h (Nat.not_le.2 (movesToPause_pos y.pos))
  | cons u us ih =>
    by_cases hu : u = .consumer
    · subst hu
      rw [List.count_cons_self] at h
      obtain ⟨x, hx⟩ := turn_goes_on .consumer y
      obtain hpause | hlt := consume_nearer hx
      · exact ⟨[.consumer], us, x, rfl, by simp, by rw [turns_cons, hx]; rfl, hpause⟩
      · obtain ⟨vs, ws, z, rfl, -, hz, hpause⟩ := ih x (by omega)
        exact ⟨.consumer :: vs, ws, z, rfl, by simp, by rw [turns_cons, hx, andThen_next, hz], hpause⟩
    · rw [List.count_cons_of_ne hu] at h
      obtain ⟨i, s, -, -, hx⟩ := turn_other_goes_on y hu
      obtain ⟨vs, ws, z, rfl, hmem, hz, hpause⟩ := ih { y with pwt := s } h
      exact ⟨u :: vs, ws, z, rfl, by simp [hmem], by rw [turns_cons, hx, andThen_next, hz], hpause⟩

/-- A wait of d microseconds is ADV d on PWT, beside a consumer that stays where it is. -/
theorem turns_microseconds (d : Nat) (y : System) :
    System.turns (List.replicate d .microsecond) y =
      andThen (runOps (advOps d) y.pwt) fun s => .next { y with pwt := s } := by
  induction d generalizing y with
  | zero => rfl
  | succ d ih =>
    have hturn : y.turn .microsecond = .next { y with pwt := y.pwt.setNow (y.pwt.now + 1) } := rfl
    rw [List.replicate_succ, turns_cons, hturn, andThen_next, ih]
    rfl

/-- Settles O58: every turn goes on; each move of the consumer ends the cycle or lowers movesToPause, which is at most ten; a turn
of another agent is turn_other_goes_on, and a wait is ADV d. -/
theorem loopRunsForeverBesideTheProducer : Obligations.LoopRunsForeverBesideTheProducer := by
  refine ⟨turns_run_trace, fun us y h => ?_, fun u y hu => turn_other_goes_on y hu, fun d y => ?_⟩
  · exact turns_reach_pause us y ((movesToPause_le_ten y.pos).trans h)
  · rw [turns_microseconds, runOps_advOps, andThen_next]
    exact ⟨_, rfl, rfl, rfl, rfl, fun n => ⟨rfl, rfl, rfl⟩⟩

end Sys2Proof.Machine
end

