-- ==== Sys2Proof/Proofs/Memory.lean ====
section
/-!
PROOFS. The accesses to the register file (20_memory.md): which operations repeat without further effect (R47), and what the
consumer reads from an accepted FALL n to the next CLR n (R53).
-/

namespace Sys2Proof.Machine

open State

/-! ### Runs -/

/-- Every run goes on, from every state (R107). -/
theorem runOps_goes_on (is : List Instr) (s : State) : ∃ t, runOps is s = .next t := by
  induction is generalizing s with
  | nil => exact ⟨s, rfl⟩
  | cons i is ih =>
    obtain ⟨a, ha⟩ := exec_goes_on i s
    obtain ⟨t, ht⟩ := ih a
    exact ⟨t, by rw [runOps_cons, ha, andThen_next, ht]⟩

/-- If an operation changes nothing where it has just been done, doing it any number of times is doing it once. -/
theorem runOps_replicate_of_exec_idem {i : Instr} {s t : State} (hs : exec i s = .next t) (ht : exec i t = .next t) (k : Nat) :
    runOps (List.replicate (k + 1) i) s = .next t := by
  induction k generalizing s with
  | zero => simp [hs]
  | succ k ih => rw [List.replicate_succ, runOps_cons, hs, andThen_next, ih ht]

/-! ### Idempotent operations -/

section Deliver

variable {TSW NCH : Nat} (st : State TSW NCH) (n : Channel NCH)

theorem deliver_deliver (v v' : Word TSW) : (st.deliver v).deliver v' = st.deliver v' := rfl

/-- Freeing the buffer and delivering a result touch different fields. -/
theorem releaseBuffer_deliver (v : Word TSW) : (st.deliver v).releaseBuffer n = (st.releaseBuffer n).deliver v := rfl

theorem releaseBuffer_releaseBuffer : (st.releaseBuffer n).releaseBuffer n = st.releaseBuffer n := by simp [releaseBuffer]

end Deliver

/-- A consumer read changes no register, and read again at once it returns the same value. -/
theorem exec_read_idem {i : Instr} {n : Channel} (hi : i = .rdf n ∨ i = .rdw n) (s : State) :
    ∃ t, exec i s = .next t ∧ t.sameRegs s ∧ exec i t = .next t := by
  obtain rfl | rfl := hi <;> exact ⟨_, rfl, ⟨fun _ => ⟨rfl, rfl, rfl⟩, rfl⟩, rfl⟩

/-- CLR n on a channel whose flag is clear changes no register. -/
theorem sameRegs_of_exec_clr {n : Channel} {s t : State} (hf : s.F n = false) (h : exec (.clr n) s = .next t) :
    t.sameRegs s := by
  cases h
  refine ⟨fun m => ⟨by simp, by simp, ?_⟩, by simp⟩
  by_cases hm : m = n
  · subst hm; simp [hf]
  · simp [hm]

theorem exec_clr_idem (n : Channel) (s : State) : ∃ t, exec (.clr n) s = .next t ∧ exec (.clr n) t = .next t := by
  refine ⟨_, rfl, ?_⟩
  rw [exec_clr, releaseBuffer_deliver, deliver_deliver, releaseBuffer_releaseBuffer]

theorem exec_rise_idem (n : Channel) (s : State) : ∃ t, exec (.rise n) s = .next t ∧ exec (.rise n) t = .next t :=
  ⟨_, rfl, by simp⟩

/-! ### A run in which no FALL n is accepted -/

/-- Wherever the run comes to a FALL n, its guard fails (R116). -/
def NoAcceptedFall (n : Channel) (is : List Instr) (s : State) : Prop :=
  ∀ js ks a, is = js ++ .fall n :: ks → runOps js s = .next a → a.S n = 0 ∨ a.F n = true

section NoAcceptedFall

variable {n : Channel} {i : Instr} {is : List Instr} {s a t : State}

theorem NoAcceptedFall.head (h : NoAcceptedFall n (.fall n :: is) s) : s.S n = 0 ∨ s.F n = true :=
  h [] is s rfl rfl

theorem NoAcceptedFall.tail (h : NoAcceptedFall n (i :: is) s) (ha : exec i s = .next a) : NoAcceptedFall n is a := by
  rintro js ks b rfl hb
  exact h (i :: js) ks b rfl (by rw [runOps_cons, ha, andThen_next, hb])

/-- One operation that is no accepted FALL n leaves a clear flag clear: setting F[n] has no other cause (R31). -/
theorem NoAcceptedFall.exec_F (h : NoAcceptedFall n (i :: is) s) (hf : s.F n = false) (ha : exec i s = .next a) :
    a.F n = false := by
  by_contra hset
  obtain ⟨hraise, -⟩ := flagTransitionsHaveOneCause i s a n ha
  obtain ⟨rfl, hpending⟩ := hraise hf (by simpa using hset)
  obtain hs | hfull := h.head
  · exact hpending hs
  · simp [hf] at hfull

/-- Nor does the whole run set it. -/
theorem NoAcceptedFall.runOps_F (h : NoAcceptedFall n is s) (hf : s.F n = false) (ht : runOps is s = .next t) :
    t.F n = false := by
  induction is generalizing s with
  | nil => cases ht; exact hf
  | cons i is ih =>
    rw [runOps_cons, andThen_eq_next] at ht
    obtain ⟨a, ha, hrun⟩ := ht
    exact ih (h.tail ha) (h.exec_F hf ha) hrun

end NoAcceptedFall

/-- Settles O32: reads and CLR n by their idempotence; the later CLR n finds F[n] still clear by NoAcceptedFall.runOps_F; RISE n and
TICK by whether NOW has moved, which it has after one TICK. -/
theorem readsRepeatAndClearIsIdempotent : Obligations.ReadsRepeatAndClearIsIdempotent := by
  intro n s
  have hmoved (v : Word) : v + 1 ≠ v := by simp
  refine ⟨fun i k hi => ?_, fun is hno => ?_, exec_clr_idem n s, exec_rise_idem n s, ?_, ?_⟩
  · obtain ⟨t, hs, hregs, ht⟩ := exec_read_idem hi s
    exact ⟨t, hs, hregs, runOps_replicate_of_exec_idem hs ht k⟩
  · obtain ⟨a, ha⟩ := exec_goes_on (.clr n) s
    obtain ⟨t, hrun⟩ := runOps_goes_on is a
    obtain ⟨u, hu⟩ := exec_goes_on (.clr n) t
    have hcons : ∀ js, runOps (.clr n :: js) s = runOps js a := fun js => by rw [runOps_cons, ha, andThen_next]
    have hnone : NoAcceptedFall n is a := fun js ks b his hb => hno js ks b his ((hcons js).trans hb)
    have hclear : a.F n = false := by cases ha; simp
    exact ⟨t, u, (hcons is).trans hrun, hu, sameRegs_of_exec_clr (hnone.runOps_F hclear hrun) hu⟩
  · refine ⟨_, _, rfl, rfl, ?_⟩
    rw [S_setS_same, S_setS_same]
    exact hmoved s.now
  · exact ⟨_, _, rfl, rfl, fun h => hmoved (s.now + 1) (congrArg State.now h)⟩

/-! ### The stability window -/

/-- An accepted FALL n publishes. -/
theorem exec_fall_accepted {n : Channel} {s : State} (hs : s.S n ≠ 0) (hf : s.F n = false) :
    exec (.fall n) s = .next (s.publish n) := by
  rw [exec_fall, if_pos ((accepts_iff s n).2 ⟨hs, hf⟩)]

/-- Settles O34: FALL n sets F[n] and W[n], and widthStableWhileFlagSet keeps both up to the two reads. -/
theorem windowDeliversPublishedWidth : Obligations.WindowDeliversPublishedWidth := by
  intro n s a is hs hf hfall hclr hrst
  rw [exec_fall_accepted hs hf] at hfall
  cases hfall
  obtain ⟨t, hrun⟩ := runOps_goes_on is (s.publish n)
  obtain ⟨-, hstable⟩ := widthStableWhileFlagSet
  obtain ⟨hw, hready⟩ := hstable n is _ t (F_publish_same s n) hclr hrst hrun
  exact ⟨t, _, _, hrun, rfl, by simp [hready], rfl, by simp [hw]⟩

end Sys2Proof.Machine
end

