-- ==== Sys2Proof/Proofs/Encoding.lean ====
section
/-!
PROOFS. The operation words (30_encoding.md): which words decode (R62 to R68), the domain each names (R70), and what becomes of
the words that are no operation of the consumer (R68, R153).
-/

namespace Sys2Proof

/-! ### The three fields of a word -/

section Fields

variable (o : BitVec 4) (z n : BitVec 2)

@[simp] theorem fieldOp_append : fieldOp (o ++ z ++ n) = o := by
  unfold fieldOp
  rw [BitVec.append_assoc]
  exact BitVec.extractLsb'_append_eq_left

@[simp] theorem fieldZ_append : fieldZ (o ++ z ++ n) = z := by
  unfold fieldZ
  rw [BitVec.extractLsb'_append_eq_of_le (by decide)]
  exact BitVec.extractLsb'_append_eq_right

@[simp] theorem fieldN_append : fieldN (o ++ z ++ n) = n := BitVec.extractLsb'_append_eq_right

/-- A word is its three fields (R60). -/
theorem append_fields (w : BitVec 8) : fieldOp w ++ fieldZ w ++ fieldN w = w := by
  unfold fieldOp fieldZ fieldN
  rw [BitVec.extractLsb'_append_extractLsb'_eq_extractLsb' (by decide : 4 = 2 + 2)]
  exact BitVec.extractLsb'_append_extractLsb'

/-- The mask of the channel rows keeps all but field n (R62). -/
theorem append_and_channelMask : (o ++ z ++ n) &&& (0xFC : BitVec 8) = o ++ z ++ (0 : BitVec 2) := by
  change (o ++ z ++ n) &&& (BitVec.allOnes 4 ++ BitVec.allOnes 2 ++ (0 : BitVec 2)) = _
  rw [BitVec.and_append, BitVec.and_append, BitVec.and_allOnes, BitVec.and_allOnes]
  exact congrArg _ BitVec.and_zero

end Fields

/-- What a channel row's mask and match say of a word. -/
theorem fields_of_and_channelMask {w : BitVec 8} {o : BitVec 4} (h : w &&& 0xFC = o ++ (0 : BitVec 2) ++ (0 : BitVec 2)) :
    fieldOp w = o ∧ fieldZ w = 0 := by
  rw [← append_fields w, append_and_channelMask] at h
  exact ⟨by simpa using congrArg fieldOp h, by simpa using congrArg fieldZ h⟩

/-! ### The decoder and the encoder -/

section Coding

variable {NCH : Nat} {i : Instr NCH} {w : BitVec 8}

/-- A field that names a channel is that channel's field (R61). -/
theorem Channel.field_of_ofField {n : BitVec 2} {c : Channel NCH} (h : Channel.ofField n = some c) : c.field = n := by
  rw [field, ofNumber_eq_some.1 h, BitVec.ofNat_toNat, BitVec.setWidth_eq]

theorem decodeChannelOp_eq_op {mk : Channel NCH → Instr NCH} {n : BitVec 2} (h : decodeChannelOp mk n = .op i) :
    ∃ c, i = mk c ∧ n = c.field := by
  unfold decodeChannelOp at h
  split at h
  · next c hc =>
    cases h
    exact ⟨c, rfl, (Channel.field_of_ofField hc).symm⟩
  · cases h

theorem decodePlainOp_eq_op {j : Instr NCH} {n : BitVec 2} (h : decodePlainOp j n = .op i) : i = j ∧ n = 0 := by
  unfold decodePlainOp at h
  split at h
  · cases h
    exact ⟨rfl, ‹_›⟩
  · cases h

/-- The fields of a word that decodes are those of its operation (R62, R64). -/
theorem fields_of_decode (h : decode w NCH = .op i) : fieldOp w = i.opcode ∧ fieldZ w = 0 ∧ fieldN w = i.nField := by
  unfold decode at h
  split_ifs at h with hz h1 h2 h4 h5 h6 h8 hF
  iterate 5
    · obtain ⟨c, rfl, hn⟩ := decodeChannelOp_eq_op h
      exact ⟨‹fieldOp w = _›, not_not.1 hz, hn⟩
  iterate 2
    · obtain ⟨rfl, hn⟩ := decodePlainOp_eq_op h
      exact ⟨‹fieldOp w = _›, not_not.1 hz, hn⟩

/-- A word with an operation's fields is its encoding (R60). -/
theorem encode_of_fields (ho : fieldOp w = i.opcode) (hz : fieldZ w = 0) (hn : fieldN w = i.nField) : encode i = w := by
  rw [encode, ← ho, ← hz, ← hn]
  exact append_fields w

theorem encode_of_decode (h : decode w NCH = .op i) : encode i = w := by
  obtain ⟨ho, hz, hn⟩ := fields_of_decode h
  exact encode_of_fields ho hz hn

/-- Every operation's word decodes to it, as long as field n holds every channel number (R61). -/
theorem decode_encode (hNCH : NCH ≤ 3) (i : Instr NCH) : decode (encode i) NCH = .op i := by
  unfold decode encode
  rw [fieldZ_append, fieldOp_append, fieldN_append]
  cases i <;> simp [Instr.opcode, Instr.nField, Instr.channel, decodeChannelOp, decodePlainOp, Channel.ofField_field hNCH]

end Coding

/-! ### The 17 words -/

/-- The operations, in the order of the table of R62. -/
def allOps : List Instr :=
  [Instr.rise, .fall, .rdf, .rdw, .clr].flatMap (Channel.all.map ·) ++ [.tick, .rst]

theorem mem_allOps (i : Instr) : i ∈ allOps := by
  cases i <;> simp [allOps]

/-- Settles O11: decoding and encoding are inverse, so the words that decode are the encodings of the 17 operations. -/
theorem validWordsAreTheSeventeen : Obligations.ValidWordsAreTheSeventeen := by
  intro w
  have hwords : ([0x11, 0x12, 0x13, 0x21, 0x22, 0x23, 0x41, 0x42, 0x43, 0x51, 0x52, 0x53, 0x61, 0x62, 0x63, 0x80, 0xF0] :
      List (BitVec 8)) = allOps.map encode := by decide
  rw [hwords, List.mem_map]
  constructor
  · rintro ⟨i, hi⟩
    exact ⟨i, mem_allOps i, encode_of_decode hi⟩
  · rintro ⟨i, -, rfl⟩
    exact ⟨i, decode_encode (le_refl 3) i⟩

/-! ### The rows of the opcode table -/

/-- A field n other than 00 names one of the three channels (R61). -/
theorem exists_channel_of_field {n : BitVec 2} (h : n ≠ 0) : ∃ c : Channel, c.field = n := by
  have hall : ∀ n : BitVec 2, n ≠ 0 → ∃ c ∈ Channel.all, c.field = n := by decide
  obtain ⟨c, -, hc⟩ := hall n h
  exact ⟨c, hc⟩

/-- A word that meets a channel row's mask, match and constraint decodes. -/
theorem decodes_of_channelRow {w : BitVec 8} (mk : Channel → Instr) {o : BitVec 4} (hop : ∀ c, (mk c).opcode = o)
    (hch : ∀ c, (mk c).channel = some c) (hm : w &&& 0xFC = o ++ (0 : BitVec 2) ++ (0 : BitVec 2)) (hn : fieldN w ≠ 0) :
    ∃ i : Instr, decode w = .op i := by
  obtain ⟨ho, hz⟩ := fields_of_and_channelMask hm
  obtain ⟨c, hc⟩ := exists_channel_of_field hn
  have hnField : fieldN w = (mk c).nField := by rw [Instr.nField, hch c, ← hc]
  have hw : encode (mk c) = w := encode_of_fields (ho.trans (hop c).symm) hz hnField
  exact ⟨mk c, hw ▸ decode_encode (le_refl 3) (mk c)⟩

/-- A word that a row without a channel selects is that row's one word. -/
theorem decodes_of_plainRow {w : BitVec 8} (i : Instr) (hm : w &&& 0xFF = encode i) : ∃ i : Instr, decode w = .op i := by
  have hw : w = encode i := BitVec.and_allOnes.symm.trans hm
  exact ⟨i, hw ▸ decode_encode (le_refl 3) i⟩

theorem decodes_of_selects {r : Row} {w : BitVec 8} (hr : r ∈ opcodeTable) (h : r.selects w = true) :
    ∃ i : Instr, decode w = .op i := by
  obtain ⟨hm, hn⟩ : w &&& r.maskBits = r.matchBits ∧ (r.needsChannel = false ∨ fieldN w ≠ 0) := by
    simpa [Row.selects] using h
  simp only [opcodeTable, List.mem_cons, List.not_mem_nil, or_false] at hr
  obtain rfl | rfl | rfl | rfl | rfl | rfl | rfl := hr
  · exact decodes_of_channelRow .rise (fun _ => rfl) (fun _ => rfl) hm (by simpa using hn)
  · exact decodes_of_channelRow .fall (fun _ => rfl) (fun _ => rfl) hm (by simpa using hn)
  · exact decodes_of_channelRow .rdf (fun _ => rfl) (fun _ => rfl) hm (by simpa using hn)
  · exact decodes_of_channelRow .rdw (fun _ => rfl) (fun _ => rfl) hm (by simpa using hn)
  · exact decodes_of_channelRow .clr (fun _ => rfl) (fun _ => rfl) hm (by simpa using hn)
  · exact decodes_of_plainRow .tick hm
  · exact decodes_of_plainRow .rst hm

/-- The rows that select an operation's word: its own. -/
theorem rows_of_encode (i : Instr) : (opcodeTable.filter fun r => r.selects (encode i)).map Row.mnemonic =
    [Machine.mnemonicOf i] := by
  have hall : ∀ i ∈ allOps, (opcodeTable.filter fun r => r.selects (encode i)).map Row.mnemonic = [Machine.mnemonicOf i] := by
    decide
  exact hall i (mem_allOps i)

/-- Settles O12: a word that decodes is an operation's word, which its own row alone selects; a word that a row selects
decodes, so no row selects an invalid one. -/
theorem rowsSelectWhatIsDecoded : Obligations.RowsSelectWhatIsDecoded := by
  intro w
  cases hd : decode w with
  | op i => rw [← encode_of_decode hd]; exact rows_of_encode i
  | invalid why =>
    have hnone : (opcodeTable.filter fun r => r.selects w) = [] := by
      refine List.filter_eq_nil_iff.2 fun r hr hsel => ?_
      obtain ⟨i, hi⟩ := decodes_of_selects hr hsel
      cases hd.symm.trans hi
    rw [hnone]; rfl

/-! ### Reserved values and domains -/

/-- No operation has a reserved opcode (R65). -/
theorem opcode_not_reserved {NCH : Nat} (i : Instr NCH) :
    i.opcode ∉ ([0x0, 0x3, 0x7, 0x9, 0xA, 0xB, 0xC, 0xD, 0xE] : List (BitVec 4)) := by
  cases i <;> simp only [Instr.opcode] <;> decide

/-- Settles O13: a word that decodes has its operation's opcode and z = 00; the listed words are evaluated. -/
theorem reservedWordsAreInvalid : Obligations.ReservedWordsAreInvalid := by
  refine ⟨fun w hres i hd => ?_, fun w hne i hd => ?_, by decide, by decide, by decide⟩
  · obtain ⟨ho, -, -⟩ := fields_of_decode hd
    exact opcode_not_reserved i (ho ▸ hres)
  · obtain ⟨-, hz, -⟩ := fields_of_decode hd
    exact hne hz

/-- Every operation's word names its agent's domain (R70). -/
theorem wordDomain_encode (i : Instr) : wordDomain (encode i) = i.agent.domain := by
  cases i with
  | rise n => exact Laws.NamesDomain.rise n
  | fall n => exact Laws.NamesDomain.fall n
  | rdf n => exact Laws.NamesDomain.rdf n
  | rdw n => exact Laws.NamesDomain.rdw n
  | clr n => exact Laws.NamesDomain.clr n
  | tick => exact Laws.NamesDomain.tick
  | rst => exact Laws.NamesDomain.rst

/-- Settles O14: a word that decodes is its operation's word. -/
theorem validWordNamesItsDomain : Obligations.ValidWordNamesItsDomain := by
  intro w i hd
  rw [← encode_of_decode hd]
  exact wordDomain_encode i

/-- The consumer's operations are RDF, RDW and CLR (R62). -/
theorem agent_eq_consumer_iff {NCH : Nat} (i : Instr NCH) :
    i.agent = .consumer ↔ ∃ n, i = .rdf n ∨ i = .rdw n ∨ i = .clr n := by
  cases i <;> simp [Instr.agent]

end Sys2Proof

/-! ### Words in a trace and at the consumer port -/

namespace Sys2Proof.Machine

open State

section Ports

variable {s : State} {w : BitVec 8} {es : List Event}

theorem step_of_pending {e : Event} (h : s.pending = e :: es) : step s = perform e (s.withPending es) := by
  rw [step, performNext, h]

/-- A consumer operation at the port is performed (R153). -/
theorem step_command_op {i : Instr} (h : s.pending = .command w :: es) (hd : decode w = .op i) (ha : i.agent = .consumer) :
    step s = exec i (s.withPending es) := by
  rw [step_of_pending h]
  simp [perform, performCommand, hd, ha]

/-- A word at the port that is no operation of the consumer is ignored (R68): no register changes, and c_rdata is 0. -/
theorem step_command_ignored (h : s.pending = .command w :: es) (hno : ∀ i, decode w = .op i → i.agent ≠ .consumer) :
    ∃ t, step s = .next t ∧ t.sameRegs s ∧ t.cRdata = some 0 ∧ t.pending = es := by
  have hignored : step s = ignoreCommand (s.withPending es) := by
    rw [step_of_pending h]
    cases hd : decode w with
    | op i => simp [perform, performCommand, hd, hno i hd]
    | invalid why => simp [perform, performCommand, hd]
  exact ⟨_, hignored, ⟨fun n => ⟨rfl, rfl, rfl⟩, rfl⟩, rfl, rfl⟩

end Ports

/-- Settles O19: the words that decode to an operation of the consumer are performed, the others ignored. -/
theorem consumerPortAcceptsOnlyConsumerWords : Obligations.ConsumerPortAcceptsOnlyConsumerWords := by
  intro s w es h
  constructor
  · rintro n (hd | hd | hd) <;> exact ⟨_, hd, step_command_op h hd rfl⟩
  · intro hno
    refine step_command_ignored h fun i hd ha => ?_
    obtain ⟨n, hi⟩ := (agent_eq_consumer_iff i).1 ha
    obtain ⟨hrdf, hrdw, hclr⟩ := hno n
    obtain rfl | rfl | rfl := hi
    · exact hrdf hd
    · exact hrdw hd
    · exact hclr hd

/-- Settles O20: a trace word that decodes to nothing is refused; at the port it is no operation of the consumer, and neither
is a word of another domain, since a valid word names its agent's domain (R70). -/
theorem invalidWordRefusedOrIgnored : Obligations.InvalidWordRefusedOrIgnored := by
  intro s w es
  refine ⟨fun why h hd => ?_, fun why h hd => ?_, fun h _ hdom => ?_⟩
  · rw [step_of_pending h]
    simp [perform, performWord, hd]
  · refine step_command_ignored h fun i hi => ?_
    cases hd.symm.trans hi
  · refine step_command_ignored h fun i hi ha => hdom ?_
    rw [validWordNamesItsDomain w i hi, ha]
    rfl

end Sys2Proof.Machine
end

