-- ==== Sys2Proof/Proofs/Producer.lean ====
section
/-!
PROOFS. The producer's operations (40_producer_edge_capture.md): what RISE n records, and what it leaves unchanged (R75).
-/

namespace Sys2Proof.Machine

open State

/-- Settles O1: the words are evaluated; RISE n is the one write S[n] <- NOW (exec_rise), and writes no other channel since its
channel is n. -/
theorem riseRecordsTimestamp : Obligations.RiseRecordsTimestamp := by
  refine ⟨by decide, fun n s => ⟨rfl, s.setS n s.now, exec_rise n s, ?_⟩⟩
  have hother : ∀ m, m ≠ n → (s.setS n s.now).sameChan s m := fun m hm =>
    exec_sameChan_other (i := .rise n) rfl hm (exec_rise n s)
  exact ⟨S_setS_same .., W_setS .., F_setS .., hother, setS_now .., setS_cRdata .., setS_pending ..⟩

end Sys2Proof.Machine
end

