-- ==== Sys2Proof/Proofs/Consumer.lean ====
section
/-!
PROOFS. The consumer's operations (41_consumer_handshake.md): what RDF n and RDW n return (R80, R81), what CLR n clears (R82), and
TAKE and POLL (R87, R88). A TAKE n leaves the state that CLR n leaves, whether or not the flag was set.
-/

namespace Sys2Proof.Machine

open State

/-! ### The three operations -/

/-- A result on c_rdata changes no register (R83). -/
theorem sameRegs_deliver {TSW NCH : Nat} (s : State TSW NCH) (v : Word TSW) : (s.deliver v).sameRegs s :=
  ⟨fun _ => ⟨rfl, rfl, rfl⟩, rfl⟩

theorem zextFlag_eq_ite (f : Bool) : zextFlag f = if f then (1 : Word) else 0 := by
  cases f <;> simp

/-- Settles O4: the words are evaluated; RDF n delivers the flag zero-extended, which is 0 or 1, and nothing else. -/
theorem readFlagReturnsZeroOrOne : Obligations.ReadFlagReturnsZeroOrOne := by
  refine ⟨by decide, fun n s => ⟨rfl, s.deliver (zextFlag (s.F n)), exec_rdf n s, ?_⟩⟩
  exact ⟨congrArg some (zextFlag_eq_ite (s.F n)), sameRegs_deliver .., deliver_pending ..⟩

/-- Settles O5: the words are evaluated; RDW n delivers W[n] in every state, and nothing else. -/
theorem readWidthReturnsRegister : Obligations.ReadWidthReturnsRegister := by
  refine ⟨by decide, fun n s => ⟨rfl, s.deliver (s.W n), exec_rdw n s, ?_⟩⟩
  exact ⟨deliver_cRdata .., sameRegs_deliver .., deliver_pending ..⟩

/-- Everything CLR n does and leaves unchanged (R82). -/
theorem exec_clr_frame {n : Channel} {s t : State} (h : exec (.clr n) s = .next t) :
    t.F n = false ∧ t.cRdata = some 0 ∧ t.W n = s.W n ∧ t.S n = s.S n ∧ (∀ m, m ≠ n → t.sameChan s m) ∧
      t.now = s.now ∧ t.pending = s.pending := by
  have hother : ∀ m, m ≠ n → t.sameChan s m := fun m hm => exec_sameChan_other rfl hm h
  cases h
  exact ⟨F_releaseBuffer_same s n, rfl, W_releaseBuffer s n n, S_releaseBuffer s n n, hother, releaseBuffer_now s n,
    releaseBuffer_pending s n⟩

/-- Settles O6: the words are evaluated; exec_clr_frame is the rest. -/
theorem clearReleasesBuffer : Obligations.ClearReleasesBuffer := by
  refine ⟨by decide, fun n s => ⟨rfl, ?_⟩⟩
  obtain ⟨t, ht⟩ := exec_goes_on (.clr n) s
  exact ⟨t, ht, exec_clr_frame ht⟩

/-! ### TAKE -/

/-- Freeing a buffer that is free changes nothing. -/
theorem releaseBuffer_of_F_false {TSW NCH : Nat} {s : State TSW NCH} {n : Channel NCH} (h : s.F n = false) :
    s.releaseBuffer n = s := by
  refine ext_regs (by simp) (by simp) (fun m => ?_) (by simp) (by simp) (by simp)
  by_cases hm : m = n
  · subst hm; simp [h]
  · simp [hm]

/-- TAKE n leaves the state that CLR n leaves, and delivers W[n] if the flag was set. -/
theorem take_of_clr {n : Channel} {s t : State} (h : exec (.clr n) s = .next t) :
    take n s = .next { state := t, delivered := if s.F n then [(n, s.W n)] else [] } := by
  cases h
  cases hf : s.F n with
  | true => exact take_ready hf
  | false => rw [take_idle hf, releaseBuffer_of_F_false hf]; rfl

/-- So does its expansion, three operations or one (R87). -/
theorem runOps_takeOps_of_clr {n : Channel} {s t : State} (h : exec (.clr n) s = .next t) :
    runOps (takeOps n (s.F n)) s = .next t := by
  cases h
  cases hf : s.F n with
  | true => rfl
  | false => simp [takeOps, hf, releaseBuffer_of_F_false hf]

/-- Settles O48: by its state TAKE n is CLR n, and so is its expansion. -/
theorem takeDeliversAndClears : Obligations.TakeDeliversAndClears := by
  intro n s
  obtain ⟨t, ht⟩ := exec_goes_on (.clr n) s
  obtain ⟨hf, -, hw, hs, hother, hnow, -⟩ := exec_clr_frame ht
  exact ⟨_, take_of_clr ht, rfl, hf, hw, hs, hother, hnow, runOps_takeOps_of_clr ht⟩

/-! ### POLL -/

/-- TAKE of the listed channels begins with the state that CLR of the first leaves. -/
theorem takeEach_cons (n : Channel) (ns : List Channel) (s : State) :
    takeEach (n :: ns) s = andThen (takeEach ns ((s.releaseBuffer n).deliver 0)) fun b =>
      .next { state := b.state, delivered := (if s.F n then [(n, s.W n)] else []) ++ b.delivered } := by
  rw [takeEach, take_of_clr (exec_clr n s), andThen_next]

/-- TAKE of each listed channel, in whatever order, clears their flags and changes no other register. -/
theorem takeEach_regs (ns : List Channel) (s : State) : ∃ a, takeEach ns s = .next a ∧
    (∀ m, a.state.F m = (s.F m && decide (m ∉ ns)) ∧ a.state.W m = s.W m ∧ a.state.S m = s.S m) ∧
    a.state.now = s.now := by
  induction ns generalizing s with
  | nil => exact ⟨_, rfl, by simp, rfl⟩
  | cons n ns ih =>
    obtain ⟨b, hb, hregs, hnow⟩ := ih ((s.releaseBuffer n).deliver 0)
    refine ⟨_, by rw [takeEach_cons, hb, andThen_next], fun m => ?_, by simp [hnow]⟩
    obtain ⟨hf, hw, hs⟩ := hregs m
    by_cases hm : m = n
    · subst hm; simp [hf, hw, hs]
    · simp [hf, hw, hs, hm]

/-- TAKE of each listed channel, none listed twice, delivers the waiting widths in the order listed: no TAKE touches the channels
still to come. -/
theorem takeEach_delivered {ns : List Channel} {s : State} {a : Taken} (hnd : ns.Nodup) (h : takeEach ns s = .next a) :
    a.delivered = (ns.filter s.F).map fun n => (n, s.W n) := by
  induction ns generalizing s a with
  | nil => cases h; rfl
  | cons n ns ih =>
    obtain ⟨hn, hns⟩ := List.nodup_cons.1 hnd
    rw [takeEach_cons, andThen_eq_next] at h
    obtain ⟨b, hb, ha⟩ := h
    cases ha
    have hflags : ns.filter ((s.releaseBuffer n).deliver 0).F = ns.filter s.F :=
      List.filter_congr fun m hm => F_releaseBuffer_other s n m (ne_of_mem_of_not_mem hm hn)
    have hlater : b.delivered = (ns.filter s.F).map fun m => (m, s.W m) := by
      rw [ih hns hb, hflags]
      simp
    cases hf : s.F n <;> simp [hlater, hf]

/-- TAKE of every channel, in whatever order, leaves every flag clear and changes no other register. -/
theorem takeEach_every {ns : List Channel} (hns : ∀ m, m ∈ ns) (s : State) : ∃ a, takeEach ns s = .next a ∧
    (∀ m, a.state.F m = false ∧ a.state.W m = s.W m ∧ a.state.S m = s.S m) ∧ a.state.now = s.now := by
  simpa [hns] using takeEach_regs ns s

/-- The expansion of TAKE n is one word or three (R87). -/
theorem takeOps_length (n : Channel) (ready : Bool) : (takeOps n ready).length = if ready then 3 else 1 := by
  cases ready <;> rfl

/-- The expansion of a POLL is 3 to 9 words long (R88). -/
theorem poll_length (ready : Channel → Bool) : 3 ≤ (Channel.all.map fun n => (takeOps n (ready n)).length).sum ∧
    (Channel.all.map fun n => (takeOps n (ready n)).length).sum ≤ 9 := by
  simp only [Channel.all_default, takeOps_length, List.map_cons, List.map_nil, List.sum_cons, List.sum_nil]
  split_ifs <;> simp

/-- Settles O49: POLL lists every channel once; the registers after takeEach_every name the state before and not the order. -/
theorem pollTakesEveryWaitingSample : Obligations.PollTakesEveryWaitingSample := by
  intro s
  obtain ⟨a, ha, hregs, hnow⟩ := takeEach_every Channel.mem_all s
  have hdelivered : a.delivered = (Channel.all.filter s.F).map fun n => (n, s.W n) := takeEach_delivered (by decide) ha
  rw [Channel.all_default] at hdelivered
  refine ⟨a, ha, hdelivered, hregs, hnow, fun ns hperm => ?_, poll_length s.F⟩
  obtain ⟨b, hb, hregs', hnow'⟩ := takeEach_every (fun m => hperm.mem_iff.2 (Channel.mem_all m)) s
  refine ⟨b, hb, fun m => ?_, hnow'.trans hnow.symm⟩
  obtain ⟨hf, hw, hs⟩ := hregs m
  obtain ⟨hf', hw', hs'⟩ := hregs' m
  exact ⟨hw'.trans hw.symm, hs'.trans hs.symm, hf'.trans hf.symm⟩

end Sys2Proof.Machine
end

