-- ==== Sys2Proof/Proofs/Timebase.lean ====
section
/-!
PROOFS. The timebase (42_timebase_and_reset.md): TICK and its repetition ADV write NOW and nothing else (R89, R91), and count
modulo 2^32.
-/

namespace Sys2Proof.Machine

open State

/-- A write of NOW touches no register of any channel (R36). -/
@[simp] theorem sameChan_setNow {TSW NCH : Nat} (s : State TSW NCH) (v : Word TSW) (n : Channel NCH) :
    (s.setNow v).sameChan s n :=
  ⟨W_setNow .., S_setNow .., F_setNow ..⟩

/-- Settles O7: the word is evaluated; TICK is the one write NOW <- NOW + 1 (exec_tick), which counts modulo 2^32. -/
theorem tickAddsOneMicrosecond : Obligations.TickAddsOneMicrosecond := by
  refine ⟨by decide, rfl, fun s => ⟨s.setNow (s.now + 1), exec_tick s, ?_⟩⟩
  exact ⟨BitVec.toNat_add s.now 1, sameChan_setNow s _, setNow_cRdata .., setNow_pending ..⟩

/-- The words of ADV d are d times the word of TICK (R91). -/
theorem encodeTrace_advOps (d : Nat) : encodeTrace (advOps d : List Instr) = List.replicate d (encode (.tick : Instr)) :=
  List.map_replicate

/-- Settles O38: the d words are encodeTrace_advOps, the word of TICK evaluated to 0x80; the d TICKs are the one write
NOW <- NOW + d (runOps_advOps), of d modulo 2^32. -/
theorem advanceAddsItsCount : Obligations.AdvanceAddsItsCount := by
  refine fun d => ⟨encodeTrace_advOps d, fun s => ⟨s.setNow (s.now + BitVec.ofNat 32 d), runOps_advOps d s, ?_⟩⟩
  have hnow : (s.now + BitVec.ofNat 32 d).toNat = (s.now.toNat + d) % 2 ^ 32 := by
    rw [BitVec.toNat_add, BitVec.toNat_ofNat, Nat.add_mod_mod]
  exact ⟨hnow, sameChan_setNow s _, setNow_cRdata .., setNow_pending ..⟩

end Sys2Proof.Machine
end

