-- ==== Sys2Proof/Proofs/Environment.lean ====
section
/-!
PROOFS. The reference consumer (43_consumer_environment.md): the switch of channel 1 (R96), and the trigger of channel 3 with
its colour cursor (R98, R100).
-/

namespace Sys2Proof.Machine

/-! ### The switch -/

/-- The switch test as a comparison of numbers. -/
theorem switchOn_iff (p : Word) : switchOn p = true ↔ 1600 < p.toNat := by
  simp [switchOn, Config.swThresh]

/-- The switch output as a comparison of numbers, given the value that ON denotes. -/
theorem switchDuty_eq (ledOn : Duty) (p : Word) : switchDuty ledOn p = if 1600 < p.toNat then ledOn else 0 := by
  simp only [switchDuty, switchOn_iff]

/-- Settles O52: the test and the duty are switchOn_iff and switchDuty_eq; channel 1's mapper is a write of LED1 (map_one). -/
theorem switchIsStrictThreshold : Obligations.SwitchIsStrictThreshold :=
  fun p => ⟨switchOn_iff p, fun v => ⟨switchDuty_eq Config.ledOn p, map_one v p⟩⟩

/-! ### The trigger -/

section Trigger

variable (v : Env) {p : Word}

/-- Up to the threshold the trigger writes nothing. -/
theorem trigger_of_le (h : p.toNat ≤ 1700) : v.trigger p = v :=
  if_neg fun ht => Nat.not_lt.2 h ((triggers_iff p).1 ht)

/-- Above the threshold the trigger is one advance of the colour. -/
theorem trigger_of_lt (h : 1700 < p.toNat) : v.trigger p = v.advanceColour := if_pos ((triggers_iff p).2 h)

theorem idx_trigger (h : 1700 < p.toNat) : (v.trigger p).idx = v.idx + 1 := by
  rw [trigger_of_lt v h]; rfl

/-- The colour applied is that of the new index. -/
theorem rgb_trigger (h : 1700 < p.toNat) :
    ((v.trigger p).red, (v.trigger p).green, (v.trigger p).blue) = colour (v.trigger p).idx := by
  rw [trigger_of_lt v h]; rfl

/-- An advance of the colour leaves LED1, LED2 and the log. -/
theorem trigger_frame (h : 1700 < p.toNat) :
    (v.trigger p).led1 = v.led1 ∧ (v.trigger p).led2 = v.led2 ∧ (v.trigger p).log = v.log := by
  rw [trigger_of_lt v h]; exact ⟨rfl, rfl, rfl⟩

end Trigger

/-- Settles O54: up to the threshold trigger_of_le; above it the new index, its colour and the frame. -/
theorem triggerAdvancesAboveThreshold : Obligations.TriggerAdvancesAboveThreshold := by
  refine fun v p => ⟨trigger_of_le v, fun h => ⟨?_, rgb_trigger v h, trigger_frame v h⟩⟩
  rw [idx_trigger v h]
  exact Fin.val_add v.idx 1

/-! ### Six triggers -/

/-- Only the trigger of channel 3 moves the cursor (R100). -/
theorem trigger_of_idx_process_ne {v : Env} {n : Channel} {p : Word} (h : (v.process n p).idx ≠ v.idx) :
    n = .three ∧ triggers p = true := by
  induction n using Channel.threeCases with
  | one => exact absurd rfl h
  | two => exact absurd rfl h
  | three =>
    refine ⟨rfl, (triggers_iff p).2 (Nat.lt_of_not_le fun hle => h ?_)⟩
    show (v.trigger p).idx = v.idx
    rw [trigger_of_le v hle]

/-- Six steps along the cyclic table are none (R100). -/
theorem add_one_six_times (i : Fin Config.ncol) : i + 1 + 1 + 1 + 1 + 1 + 1 = i := by
  revert i; decide

/-- Settles O55: each of the six is one step of the cursor (idx_trigger) and the colour of the index it leads to (rgb_trigger);
the six steps are add_one_six_times, and the colours of 1, 2, 3, 4, 5, 0 are evaluated. -/
theorem sixTriggersReturnToStart : Obligations.SixTriggersReturnToStart := by
  refine ⟨rfl, fun v n p => trigger_of_idx_process_ne, fun v p1 p2 p3 p4 p5 p6 habove => ?_⟩
  simp only [List.forall_mem_cons] at habove
  obtain ⟨h1, h2, h3, h4, h5, h6, -⟩ := habove
  constructor
  · simp only [idx_trigger, h1, h2, h3, h4, h5, h6, add_one_six_times]
  · intro hstart
    simp only [List.map_cons, List.map_nil, rgb_trigger, idx_trigger, h1, h2, h3, h4, h5, h6, hstart]
    decide

end Sys2Proof.Machine
end

