-- ==== Sys2Proof/Proofs/Exceptions.lean ====
section
/-!
PROOFS. The anomalies and how each is absorbed (60_exceptions.md): a falling edge whose guard fails is ignored (R109, R110, R116),
and every valid operation word has a next state (R107).
-/

namespace Sys2Proof.Machine

open State

/-! ### The guard of a falling edge -/

/-- A stale start, an overrun, or both: no register is written (R109, R110). -/
theorem exec_fall_ignored {n : Channel} {s : State} (h : s.S n = 0 ∨ s.F n = true) : exec (.fall n) s = .next s := by
  rw [exec_fall, (accepts_false_iff s n).2 h]
  rfl

/-- Publishing sets the flag, so where the flag was clear it changes the state. -/
theorem publish_ne_of_F_false {TSW NCH : Nat} {s : State TSW NCH} {n : Channel NCH} (hf : s.F n = false) :
    s.publish n ≠ s := by
  intro h
  have hset : s.F n = true := by simpa only [h] using F_publish_same s n
  cases hf.symm.trans hset

/-- Settles O3: where the guard fails exec_fall_ignored; where it holds FALL n publishes, which sets a flag that was clear. -/
theorem fallIgnoredUnlessBothGuards : Obligations.FallIgnoredUnlessBothGuards := by
  refine fun n s => ⟨exec_fall_ignored, fun hguard => ?_⟩
  obtain ⟨hs, hset⟩ := not_or.1 hguard
  have hf : s.F n = false := Bool.eq_false_of_not_eq_true hset
  exact ⟨s.publish n, exec_fall_accepted hs hf, publish_ne_of_F_false hf⟩

/-! ### Valid words -/

/-- A trace word that decodes is performed as its operation, on the state with the word taken off (R71). -/
theorem step_word_op {s : State} {w : BitVec 8} {i : Instr} {es : List Event} (h : s.pending = .word w :: es)
    (hd : decode w = .op i) : step s = exec i (s.withPending es) := by
  rw [step_of_pending h]
  simp [perform, performWord, hd]

/-- Settles O22: the step is the operation's exec, which goes on from every state (exec_goes_on); no step ends in a fault since
PWT has none (the type Fault is empty, R127). -/
theorem validWordsAlwaysComplete : Obligations.ValidWordsAlwaysComplete := by
  constructor
  · intro s w i es hd h
    rw [step_word_op h hd]
    exact exec_goes_on i (s.withPending es)
  · intro s f
    exact nomatch f

end Sys2Proof.Machine
end

/-!
PROOFS. Encoding and decoding there and back (R60 to R71), what a step does with the next event (R14, R68, R72), what each operation
and each agent may read and write (20_memory.md section 1, 60_exceptions.md section 4), the measured interval and the hazards of
70_reset_and_hazards.md, exactly-once delivery (R86) with the reference consumer beside it, and the text of a trace (R71).
-/

namespace Sys2Proof

/-! ### Decode and encode -/

/-- Settles O15: the two directions are encode_of_decode and decode_encode. -/
theorem decodeInvertsEncode : Obligations.DecodeInvertsEncode :=
  fun _w i => ⟨encode_of_decode, fun h => h ▸ decode_encode (le_refl 3) i⟩

/-- A sequence of words is a trace when its first word decodes and the rest is a trace (R71). -/
theorem decodeTrace_cons_eq_some {w : BitVec 8} {ws : List (BitVec 8)} {is : List Instr} :
    decodeTrace (w :: ws) = some is ↔ ∃ i js, decode w = .op i ∧ decodeTrace ws = some js ∧ i :: js = is := by
  rw [decodeTrace]
  cases decode w <;> cases decodeTrace ws <;> simp

/-- Settles O16: word for word decodeInvertsEncode, by induction on the words. -/
theorem traceDecodeInvertsEncode : Obligations.TraceDecodeInvertsEncode := by
  intro ws
  induction ws with
  | nil => intro is; cases is <;> simp [decodeTrace, encodeTrace]
  | cons w ws ih =>
    intro is
    rw [decodeTrace_cons_eq_some]
    constructor
    · rintro ⟨i, js, hi, hjs, rfl⟩
      exact congrArg₂ List.cons ((decodeInvertsEncode w i).1 hi) ((ih js).1 hjs)
    · intro h
      obtain ⟨i, js, rfl, hi, hjs⟩ := List.map_eq_cons_iff.1 h
      exact ⟨i, js, (decodeInvertsEncode w i).2 hi, (ih js).2 hjs, rfl⟩

/-- A well-formed word decodes (R62, R64). -/
theorem decodes_of_wordValid {w : BitVec 8} (h : wordValid w = true) : ∃ i : Instr, decode w = .op i := by
  obtain ⟨r, hr, hsel⟩ := List.any_eq_true.1 h
  exact decodes_of_selects hr hsel

end Sys2Proof

namespace Sys2Proof.Machine

open State

/-! ### Steps -/

/-- Settles O17: step_word_op. -/
theorem stepRunsDecodedWord : Obligations.StepRunsDecodedWord :=
  fun _s _w _es _i h hd => step_word_op h hd

/-- Settles O18: each event is performed as the operation of its port. -/
theorem portEventsAreOperations : Obligations.PortEventsAreOperations :=
  fun _s _es => ⟨fun _n h => step_of_pending h, fun _n h => step_of_pending h, fun h => step_of_pending h,
    fun h => step_of_pending h⟩

/-- Settles O21: with nothing pending a step is idle (entry 4). -/
theorem idleStepChangesNothing : Obligations.IdleStepChangesNothing := by
  intro s h
  rw [step, performNext, h]
  rfl

/-- A step takes off the next event, if there is one, and no other. -/
theorem step_pending {s t : State} (h : step s = .next t) : t.pending = s.pending.tail := by
  obtain ⟨hp, rfl⟩ | ⟨e, es, i, hp, -, hi⟩ | ⟨w, es, hp, rfl⟩ := step_cases h
  · rw [hp]; rfl
  · rw [exec_pending hi, hp]; rfl
  · rw [hp]; rfl

theorem step_traceWf {s t : State} (h : step s = .next t) (hwf : s.traceWf = true) : t.traceWf = true := by
  rw [traceWf, List.all_eq_true] at hwf ⊢
  rw [step_pending h]
  exact fun e he => hwf e (List.mem_of_mem_tail he)

/-- Only a word that does not decode stops a step (R68). -/
theorem perform_goes_on {e : Event} (h : e.wf = true) (s : State) : ∃ t, perform e s = .next t := by
  obtain ⟨i, -, hi⟩ | ⟨w, -, -, hw⟩ | ⟨w, why, rfl, hd, -⟩ := perform_cases e s
  · rw [hi]; exact exec_goes_on i s
  · exact ⟨_, hw⟩
  · obtain ⟨i, hi⟩ := decodes_of_wordValid h
    cases hd.symm.trans hi

theorem step_goes_on {s : State} (h : s.traceWf = true) : ∃ t, step s = .next t := by
  cases hp : s.pending with
  | nil => exact ⟨s, idleStepChangesNothing s hp⟩
  | cons e es =>
    rw [traceWf, List.all_eq_true] at h
    rw [step_of_pending hp]
    exact perform_goes_on (h e (by simp [hp])) _

/-- Settles O23: each step goes on (step_goes_on) and keeps what is to come well-formed (step_traceWf). -/
theorem wellFormedRunsNeverStop : Obligations.WellFormedRunsNeverStop := by
  intro s k h
  induction k generalizing s with
  | zero => exact ⟨s, rfl, h⟩
  | succ k ih =>
    obtain ⟨t, ht⟩ := step_goes_on h
    rw [run_succ ht]
    exact ih t (step_traceWf ht h)

/-- Settles O24: by induction on the operations; a step on the word of one is its exec, whatever events follow. -/
theorem steppingEncodedTraceRunsOperations : Obligations.SteppingEncodedTraceRunsOperations := by
  intro is s es
  induction is generalizing s with
  | nil => rfl
  | cons i is ih =>
    obtain ⟨t, ht⟩ := exec_goes_on i s
    have hstep : step (s.withPending ((encodeTrace (i :: is)).map Event.word ++ es)) =
        .next (t.withPending ((encodeTrace is).map Event.word ++ es)) :=
      (step_word_op rfl (decode_encode (le_refl 3) i)).trans (exec_withPending ht _)
    rw [runOps_cons, exec_withPending ht, andThen_next, ← ih t]
    exact run_succ hstep is.length

/-! ### What each operation writes -/

/-- Only the consumer's operations deliver a result (R83). -/
theorem exec_cRdata {i : Instr} {s t : State} (h : exec i s = .next t) (hi : i.agent ≠ .consumer) : t.cRdata = s.cRdata := by
  obtain ⟨n, rfl, rfl⟩ | ⟨n, rfl, -, -, rfl⟩ | ⟨n, rfl, -, rfl⟩ | ⟨n, rfl, -⟩ | ⟨n, rfl, -⟩ | ⟨n, rfl, -⟩ | ⟨rfl, rfl⟩ |
    ⟨rfl, rfl⟩ := exec_cases h
  case inr.inr.inr.inl | inr.inr.inr.inr.inl | inr.inr.inr.inr.inr.inl => exact absurd rfl hi
  all_goals simp

/-- Settles O28: exec_chan_cases lists what writes a register of channel n, exec_now what writes NOW. -/
theorem onlyListedOperationsWrite : Obligations.OnlyListedOperationsWrite := by
  intro i s t n h
  refine ⟨fun hfall hrst => ?_, fun hrise hfall hrst => ?_, fun hfall hclr hrst => ?_, exec_now h, exec_cRdata h⟩
  · obtain hw | ⟨hi, -⟩ | hi := exec_W_cases h n
    · exact hw
    · exact absurd hi hfall
    · exact absurd hi hrst
  · by_contra hne
    obtain hi | ⟨hi, -⟩ | hi := startWrittenOnlyByProducer i s t n h hne
    · exact hrise hi
    · exact hfall hi
    · exact hrst hi
  · obtain ⟨-, -, hf⟩ | ⟨-, -, -, hf⟩ | ⟨hi, -⟩ | ⟨hi, -⟩ | ⟨hi, -⟩ := exec_chan_cases h n
    · exact hf
    · exact hf
    · exact absurd hi hfall
    · exact absurd hi hclr
    · exact absurd hi hrst

/-- Settles O30: an edge unit and the consumer by the causes of each write (exec_W_cases, flagTransitionsHaveOneCause,
onlyListedOperationsWrite); the timebase performs TICK alone and the host RST alone. -/
theorem agentsKeepToTheirDomain : Obligations.AgentsKeepToTheirDomain := by
  intro i s t h
  refine ⟨fun n ha => ?_, fun ha => ?_, fun ha => ?_, fun ha => ?_⟩
  · have hi : i = .rise n ∨ i = .fall n := by cases i <;> simp_all [Instr.agent]
    have hch : i.channel = some n := by obtain rfl | rfl := hi <;> rfl
    refine ⟨exec_now h (ne_tick_of_channel hch), exec_cRdata h (by simp [ha]), fun m hm => exec_sameChan_other hch hm h,
      fun hw => ?_, fun hf => ?_⟩
    · obtain ⟨hstable, -⟩ := widthStableWhileFlagSet
      exact (hstable i s t n h hw (ne_rst_of_channel hch)).2
    · have hclr : i ≠ .clr n := by rintro rfl; simp at hi
      exact (exec_keeps_ready h hf hclr (ne_rst_of_channel hch)).2
  · obtain ⟨n, hi⟩ := (agent_eq_consumer_iff i).1 ha
    have hrise (m : Channel) : i ≠ .rise m := by rintro rfl; simp at hi
    have hfall (m : Channel) : i ≠ .fall m := by rintro rfl; simp at hi
    have htick : i ≠ .tick := by rintro rfl; simp at hi
    have hrst : i ≠ .rst := by rintro rfl; simp at hi
    refine ⟨exec_now h htick, fun m => ?_⟩
    obtain ⟨hw, hs, -⟩ := onlyListedOperationsWrite i s t m h
    obtain ⟨hraise, -⟩ := flagTransitionsHaveOneCause i s t m h
    refine ⟨hw (hfall m) hrst, hs (hrise m) (hfall m) hrst, fun hf => ?_⟩
    by_contra hset
    exact hfall m (hraise hf (by simpa using hset)).1
  · have hi : i = .tick := by cases i <;> simp_all [Instr.agent]
    subst hi
    cases h
    exact ⟨rfl, fun m => sameChan_setNow ..⟩
  · have hi : i = .rst := by cases i <;> simp_all [Instr.agent]
    subst hi
    cases h
    exact ⟨rfl, rfl⟩

/-! ### What each operation reads -/

/-- After RST no two states differ on a channel. -/
theorem sameChan_resetChannels {TSW NCH : Nat} (a b : State TSW NCH) (n : Channel NCH) :
    a.resetChannels.sameChan b.resetChannels n := by simp [sameChan]

section Congr

variable {i : Instr} {n : Channel} {a b c d : State}

theorem exec_now_congr (hnow : a.now = b.now) (hc : exec i a = .next c) (hd : exec i b = .next d) : c.now = d.now := by
  by_cases hi : i = .tick
  · subst hi
    cases hc
    cases hd
    simp [hnow]
  · rw [exec_now hc hi, exec_now hd hi, hnow]

/-- What any operation leaves of channel n depends on channel n and NOW alone. -/
theorem exec_chan_congr (hab : a.sameChan b n) (hnow : a.now = b.now) (hc : exec i a = .next c) (hd : exec i b = .next d) :
    c.sameChan d n := by
  by_cases hi : i.channel = some n
  · exact (exec_own_chan_congr hi hab hnow hc hd).1
  by_cases hrst : i = .rst
  · subst hrst
    cases hc
    cases hd
    exact sameChan_resetChannels a b n
  · have hca : c.sameChan a n := (exec_sameChan_or hc n).resolve_right (not_or.2 ⟨hi, hrst⟩)
    have hdb : d.sameChan b n := (exec_sameChan_or hd n).resolve_right (not_or.2 ⟨hi, hrst⟩)
    exact sameChan_trans hca (sameChan_trans hab (sameChan_symm hdb))

/-- So over any run. -/
theorem runOps_chan_congr (is : List Instr) (hab : a.sameChan b n) (hnow : a.now = b.now) :
    ∃ c d, runOps is a = .next c ∧ runOps is b = .next d ∧ c.sameChan d n ∧ c.now = d.now := by
  induction is generalizing a b with
  | nil => exact ⟨a, b, rfl, rfl, hab, hnow⟩
  | cons i is ih =>
    obtain ⟨c, hc⟩ := exec_goes_on i a
    obtain ⟨d, hd⟩ := exec_goes_on i b
    rw [runOps_cons, runOps_cons, hc, hd]
    exact ih (exec_chan_congr hab hnow hc hd) (exec_now_congr hnow hc hd)

/-- FALL n reads S[n], F[n] and NOW; it need not find the same W[n], which it may leave as it was. -/
theorem exec_fall_congr (hs : a.S n = b.S n) (hf : a.F n = b.F n) (hnow : a.now = b.now) (hc : exec (.fall n) a = .next c)
    (hd : exec (.fall n) b = .next d) :
    c.S n = d.S n ∧ c.F n = d.F n ∧ (c.W n = d.W n ∨ (c.W n = a.W n ∧ d.W n = b.W n)) := by
  rw [exec_fall] at hc hd
  rw [accepts_congr hs hf] at hc
  cases hc
  cases hd
  cases b.accepts n <;> simp [*]

end Congr

/-- Settles O29: runs by runOps_chan_congr; each clause by the meaning of its operation. -/
theorem resultsDependOnlyOnListedReads : Obligations.ResultsDependOnlyOnListedReads := by
  refine ⟨fun n is a b hab hnow => runOps_chan_congr is hab hnow, fun i a b => ?_⟩
  obtain ⟨c, hc⟩ := exec_goes_on i a
  obtain ⟨d, hd⟩ := exec_goes_on i b
  refine ⟨c, d, hc, hd, ?_, ?_, ?_, ?_, ?_, fun _ hnow => exec_now_congr hnow hc hd, ?_⟩
  · rintro n rfl hnow; cases hc; cases hd; simp [hnow]
  · rintro n rfl hs hf hnow; exact exec_fall_congr hs hf hnow hc hd
  · rintro n rfl hf; cases hc; cases hd; simp [hf]
  · rintro n rfl hw; cases hc; cases hd; simp [hw]
  · rintro n rfl; cases hc; cases hd; simp
  · rintro rfl n; cases hc; cases hd; exact sameChan_resetChannels a b n

/-- Deleting the operations that do not concern channel n, from two states that agree on it and on NOW. -/
theorem runOps_filter_concerns {n : Channel} (is : List Instr) {a b : State} (hab : a.sameChan b n) (hnow : a.now = b.now) :
    ∃ t u, runOps is a = .next t ∧ runOps (is.filter (concerns n)) b = .next u ∧ t.sameChan u n ∧ t.now = u.now := by
  induction is generalizing a b with
  | nil => exact ⟨a, b, rfl, rfl, hab, hnow⟩
  | cons i is ih =>
    obtain ⟨c, hc⟩ := exec_goes_on i a
    rw [runOps_cons, hc, andThen_next]
    cases hi : concerns n i with
    | true =>
      obtain ⟨d, hd⟩ := exec_goes_on i b
      rw [List.filter_cons_of_pos hi, runOps_cons, hd, andThen_next]
      exact ih (exec_chan_congr hab hnow hc hd) (exec_now_congr hnow hc hd)
    | false =>
      have hch : ∃ m, i.channel = some m ∧ n ≠ m := by
        cases hm : i.channel with
        | none => simp [concerns, hm] at hi
        | some m => exact ⟨m, rfl, fun e => by simp [concerns, hm, e] at hi⟩
      obtain ⟨m, hm, hnm⟩ := hch
      rw [List.filter_cons_of_neg (by simp [hi])]
      exact ih (sameChan_trans (exec_sameChan_other hm hnm hc) hab) ((exec_now hc (ne_tick_of_channel hm)).trans hnow)

/-- Settles O45: runOps_filter_concerns from one state. -/
theorem otherChannelsAreInvisible : Obligations.OtherChannelsAreInvisible :=
  fun n is s => runOps_filter_concerns is (sameChan_refl s n) rfl

/-! ### Time and the measured interval -/

/-- NOW counts the TICKs (R89). -/
theorem exec_now_eq {i : Instr} {s t : State} (h : exec i s = .next t) :
    t.now = s.now + BitVec.ofNat 32 ([i].count .tick) := by
  by_cases hi : i = .tick
  · subst hi
    cases h
    rfl
  · rw [exec_now h hi, List.count_singleton, if_neg (by simpa using hi)]
    exact (BitVec.add_zero s.now).symm

/-- Over a run NOW advances by the number of its TICKs, modulo 2^32. -/
theorem runOps_now {is : List Instr} {s t : State} (h : runOps is s = .next t) :
    t.now = s.now + BitVec.ofNat 32 (is.count .tick) := by
  induction is generalizing s with
  | nil => cases h; exact (BitVec.add_zero _).symm
  | cons i is ih =>
    rw [runOps_cons, andThen_eq_next] at h
    obtain ⟨a, ha, ht⟩ := h
    rw [ih ht, exec_now_eq ha, BitVec.add_assoc, ← BitVec.ofNat_add, ← List.count_append, List.singleton_append]

/-- Settles O35: the sum modulo 2^32 is runOps_now, and below 2^32 the sum itself. -/
theorem timebaseCountsTicks : Obligations.TimebaseCountsTicks := by
  intro is s
  obtain ⟨t, ht⟩ := runOps_goes_on is s
  refine ⟨t, ht, ?_, fun hlt => ?_⟩
  · rw [runOps_now ht, BitVec.add_comm, BitVec.add_sub_cancel]
  · rw [runOps_now ht, BitVec.toNat_add, BitVec.toNat_ofNat, Nat.add_mod_mod, Nat.mod_eq_of_lt hlt]

/-- Between two rising edges, and with no reset, a start is kept or taken (R30). -/
theorem exec_keeps_start {i : Instr} {n : Channel} {s t : State} {v : Word} (h : exec i s = .next t) (hrise : i ≠ .rise n)
    (hrst : i ≠ .rst) (hs : s.S n = v ∨ s.S n = 0) : t.S n = v ∨ t.S n = 0 := by
  obtain ⟨-, hkept, -⟩ | ⟨hi, -⟩ | ⟨-, -, -, -, htaken, -⟩ | ⟨-, -, hkept, -⟩ | ⟨hi, -⟩ := exec_chan_cases h n
  · rwa [hkept]
  · exact absurd hi hrise
  · exact .inr htaken
  · rwa [hkept]
  · exact absurd hi hrst

/-- Settles O36: over the run the start is the timestamp of the RISE n or gone (exec_keeps_start), and NOW counts the TICKs
(runOps_now); an accepted FALL n finds it there and publishes the difference. -/
theorem publishedWidthCountsTicksSinceRise : Obligations.PublishedWidthCountsTicksSinceRise := by
  intro n is s a t hrise hrst hrun hs hf hfall
  rw [runOps_cons, exec_rise, andThen_next] at hrun
  have hstart : a.S n = s.now ∨ a.S n = 0 :=
    runOps_keeps (P := fun x => x.S n = s.now ∨ x.S n = 0) hrun (.inl (S_setS_same ..)) fun i hi b c hb hc =>
      exec_keeps_start hc (ne_of_mem_of_not_mem hi hrise) (ne_of_mem_of_not_mem hi hrst) hb
  rw [exec_fall_accepted hs hf] at hfall
  cases hfall
  refine ⟨?_, F_publish_same a n⟩
  rw [W_publish_same, runOps_now hrun, hstart.resolve_right hs, setS_now, BitVec.add_comm, BitVec.add_sub_cancel]

/-! ### A falling edge -/

/-- The difference modulo 2^32 of two words, on numbers (D2). -/
theorem toNat_sub_eq_emod (a b : Word) : ((a - b).toNat : Int) = ((a.toNat : Int) - b.toNat) % 4294967296 := by
  rw [BitVec.toNat_sub]
  omega

/-- Settles O2: the words are evaluated; an accepted FALL n publishes, and writes no other channel since its channel is n. -/
theorem acceptedFallPublishesDelta : Obligations.AcceptedFallPublishesDelta := by
  refine ⟨by decide, fun n s hs hf => ⟨s.publish n, exec_fall_accepted hs hf, ?_⟩⟩
  have hother : ∀ m, m ≠ n → (s.publish n).sameChan s m := fun m hm =>
    exec_sameChan_other (i := .fall n) rfl hm (exec_fall_accepted hs hf)
  refine ⟨?_, S_publish_same .., F_publish_same .., hother, publish_now .., publish_cRdata .., publish_pending ..⟩
  rw [W_publish_same, toNat_sub_eq_emod]

/-- An ignored FALL n leaves the state to the rest of the run. -/
theorem runOps_fall_ignored {n : Channel} {s : State} (h : s.S n = 0 ∨ s.F n = true) (is : List Instr) :
    runOps (.fall n :: is) s = runOps is s := by
  rw [runOps_cons, exec_fall_ignored h, andThen_next]

/-- An accepted FALL n leaves the published state to the rest of the run. -/
theorem runOps_fall_accepted {n : Channel} {s : State} (hs : s.S n ≠ 0) (hf : s.F n = false) (is : List Instr) :
    runOps (.fall n :: is) s = runOps is (s.publish n) := by
  rw [runOps_cons, exec_fall_accepted hs hf, andThen_next]

/-- After a FALL n, accepted or ignored, another is ignored. -/
theorem guard_fails_after_fall {n : Channel} {s t : State} (h : exec (.fall n) s = .next t) : t.S n = 0 ∨ t.F n = true := by
  by_cases hguard : s.S n = 0 ∨ s.F n = true
  · rw [exec_fall_ignored hguard] at h
    cases h
    exact hguard
  · obtain ⟨hs, hf⟩ := not_or.1 hguard
    rw [exec_fall_accepted hs (Bool.eq_false_of_not_eq_true hf)] at h
    cases h
    exact .inr (F_publish_same s n)

/-- Settles O33: guard_fails_after_fall. -/
theorem secondFallIsIgnored : Obligations.SecondFallIsIgnored := by
  intro n s
  obtain ⟨t, ht⟩ := exec_goes_on (.fall n) s
  rw [runOps_cons, runOps_cons, ht, andThen_next, andThen_next, runOps_fall_ignored (guard_fails_after_fall ht)]

/-- Settles O44: both runs come to the state a, where the FALL n is ignored. -/
theorem ignoredFallsMayBeDeleted : Obligations.IgnoredFallsMayBeDeleted := by
  intro n is js s a ha h
  rw [runOps_append, runOps_append, ha, andThen_next, andThen_next, runOps_fall_ignored h]

/-- Settles O41: after the CLR n the FALL n is accepted, before it it is ignored. -/
theorem clearAndFallDoNotCommute : Obligations.ClearAndFallDoNotCommute := by
  intro n s hs hf
  constructor
  · rw [runOps_cons, exec_clr, andThen_next, runOps_fall_accepted (by simpa using hs) (by simp)]
    exact ⟨_, rfl, by simp⟩
  · rw [runOps_fall_ignored (.inr hf), runOps_cons, exec_clr, andThen_next]
    exact ⟨_, rfl, by simp⟩

/-! ### Pulses -/

/-- ADV d before the rest of a run. -/
theorem runOps_advOps_append (d : Nat) (is : List Instr) (s : State) :
    runOps (advOps d ++ is) s = runOps is (s.setNow (s.now + BitVec.ofNat 32 d)) := by
  rw [runOps_append, runOps_advOps, andThen_next]

/-- A rising edge, d microseconds and the rest of a run. -/
theorem runOps_rise_advOps (n : Channel) (d : Nat) (is : List Instr) (s : State) :
    runOps (.rise n :: (advOps d ++ is)) s = runOps is ((s.setS n s.now).setNow (s.now + BitVec.ofNat 32 d)) := by
  rw [runOps_cons, exec_rise, andThen_next, runOps_advOps_append, setS_now]

/-- Settles O37: the start is NOW, which is not 0, so the FALL n publishes NOW + d - NOW. -/
theorem wholePulseMeasuresItsLength : Obligations.WholePulseMeasuresItsLength := by
  intro n s d hf hnow hd
  rw [runOps_rise_advOps, runOps_fall_accepted (by simpa using hnow) (by simpa using hf)]
  refine ⟨_, rfl, ?_, S_publish_same .., F_publish_same ..⟩
  rw [W_publish_same, S_setNow, S_setS_same, setNow_now, BitVec.add_comm, BitVec.add_sub_cancel, BitVec.toNat_ofNat]
  exact Nat.mod_eq_of_lt hd

/-- Settles O39: the start is the sentinel, so the FALL n is ignored (C1). -/
theorem pulseStampedZeroIsLost : Obligations.PulseStampedZeroIsLost := by
  intro n s d hnow
  rw [runOps_rise_advOps, runOps_fall_ignored (.inl (by simpa using hnow))]
  exact ⟨_, rfl, by simpa using hnow, by simp, by simp⟩

/-- Settles O40: the first FALL n is ignored and keeps the start (D27); the second finds it, with the buffer free. -/
theorem droppedFallLeavesStartPending : Obligations.DroppedFallLeavesStartPending := by
  intro n s d hs hf
  rw [runOps_fall_ignored (.inr hf), runOps_cons, exec_clr, andThen_next, runOps_advOps_append,
    runOps_fall_accepted (by simpa using hs) (by simp)]
  exact ⟨_, rfl, by simp⟩

/-- Settles O42: after the CLR n the FALL n is accepted; RDW n returns the new width, and the flag is set for the TAKE n. -/
theorem clearBeforeReadDuplicates : Obligations.ClearBeforeReadDuplicates := by
  intro n s d e hs hf
  rw [runOps_cons, exec_rdf, andThen_next, runOps_cons, exec_clr, andThen_next, runOps_advOps_append,
    runOps_fall_accepted (by simpa using hs) (by simp), runOps_advOps_append, runOps_cons, exec_rdw, andThen_next, runOps_nil]
  exact ⟨_, _, rfl, by simp, take_ready (by simp), by simp⟩

/-- With no start pending, an operation other than RISE n leaves none pending and publishes nothing. -/
theorem exec_keeps_unstarted {i : Instr} {n : Channel} {s t : State} (h : exec i s = .next t) (hrise : i ≠ .rise n)
    (hs : s.S n = 0) (hf : s.F n = false) : t.S n = 0 ∧ t.F n = false ∧ (t.W n = s.W n ∨ t.W n = 1500) := by
  obtain ⟨hw, hs', hf'⟩ | ⟨hi, -⟩ | ⟨-, hpending, -⟩ | ⟨-, hw, hs', hf'⟩ | ⟨-, hw, hs', hf'⟩ := exec_chan_cases h n
  · exact ⟨hs'.trans hs, hf'.trans hf, .inl hw⟩
  · exact absurd hi hrise
  · exact absurd hs hpending
  · exact ⟨hs'.trans hs, hf', .inl hw⟩
  · exact ⟨hs', hf', .inr hw⟩

/-- Settles O43: without FALL n the flag has no cause to rise (R31); without RISE n no start comes (exec_keeps_unstarted). -/
theorem oneEdgeDirectionNeverPublishes : Obligations.OneEdgeDirectionNeverPublishes := by
  intro n is s hf
  obtain ⟨t, ht⟩ := runOps_goes_on is s
  refine ⟨t, ht, fun hfall => ?_, fun hrise hs => ?_⟩
  · refine runOps_keeps (P := fun x => x.F n = false) ht hf fun i hi a b ha hb => ?_
    by_contra hset
    obtain ⟨hraise, -⟩ := flagTransitionsHaveOneCause i a b n hb
    exact ne_of_mem_of_not_mem hi hfall (hraise ha (by simpa using hset)).1
  · have hkept : t.S n = 0 ∧ t.F n = false ∧ (t.W n = s.W n ∨ t.W n = 1500) := by
      refine runOps_keeps (P := fun x => x.S n = 0 ∧ x.F n = false ∧ (x.W n = s.W n ∨ x.W n = 1500)) ht
        ⟨hs, hf, .inl rfl⟩ ?_
      rintro i hi a b ⟨has, haf, haw⟩ hb
      obtain ⟨hbs, hbf, hbw⟩ := exec_keeps_unstarted hb (ne_of_mem_of_not_mem hi hrise) has haf
      refine ⟨hbs, hbf, ?_⟩
      obtain hbw | hbw := hbw
      · rwa [hbw]
      · exact .inr hbw
    exact hkept.2

/-! ### Reset -/

/-- Settles O8: the word is evaluated; RST is the one write of every channel's reset registers (exec_rst). -/
theorem resetOperationClearsChannels : Obligations.ResetOperationClearsChannels := by
  refine ⟨by decide, rfl, fun s => ⟨s.resetChannels, exec_rst s, fun n => ?_, rfl, rfl, rfl⟩⟩
  exact ⟨W_resetChannels .., S_resetChannels .., F_resetChannels ..⟩

/-- Settles O10: the launch state's registers, and those RST leaves, are the same reset registers. -/
theorem launchStateRegisters : Obligations.LaunchStateRegisters := by
  refine ⟨fun n => ⟨W_launch .., S_launch .., F_launch ..⟩, rfl, rfl, rfl, fun s => ⟨s.resetChannels, exec_rst s, ?_⟩⟩
  exact ⟨fun n => by simp, rfl⟩

/-! ### The invariant of a step -/

theorem traceWf_launch (v : Word) : (State.launch v).traceWf = true := rfl

theorem unreadNeutral_launch (v : Word) : (State.launch v).unreadNeutral := fun _ n _ => W_launch n v

/-- Settles O50: after reset is the launch state at the constant NOW_RESET. -/
theorem launchStateMeetsInvariant : Obligations.LaunchStateMeetsInvariant :=
  ⟨traceWf_launch _, unreadNeutral_launch _, fun v => ⟨traceWf_launch v, unreadNeutral_launch v⟩⟩

/-- A consumer operation delivers a result (R83). -/
theorem exec_cRdata_ne_none {i : Instr} {s t : State} (h : exec i s = .next t) (hi : i.agent = .consumer) : t.cRdata ≠ none := by
  obtain ⟨n, rfl | rfl | rfl⟩ := (agent_eq_consumer_iff i).1 hi <;> cases h <;> simp

/-- Of the operations that are not the consumer's, FALL n sets the flag where it replaces the width, and RST writes W_RESET. -/
theorem exec_keeps_unreadNeutral {i : Instr} {s t : State} (h : exec i s = .next t) (hs : s.unreadNeutral) :
    t.unreadNeutral := by
  intro hr n hf
  have ha : i.agent ≠ .consumer := fun ha => exec_cRdata_ne_none h ha hr
  have hneutral := hs ((exec_cRdata h ha).symm.trans hr) n
  obtain ⟨hw, -, hf'⟩ | ⟨-, hw, -, hf'⟩ | ⟨-, -, -, -, -, hset⟩ | ⟨hi, -⟩ | ⟨-, hw, -⟩ := exec_chan_cases h n
  · rw [hw, hneutral (hf'.symm.trans hf)]
  · rw [hw, hneutral (hf'.symm.trans hf)]
  · cases hset.symm.trans hf
  · exact absurd (congrArg Instr.agent hi) ha
  · exact hw

/-- The events to come are no part of the register invariant. -/
theorem unreadNeutral_withPending {s : State} (h : s.unreadNeutral) (es : List Event) : (s.withPending es).unreadNeutral := h

/-- Settles O51: the trace by step_traceWf; the widths by the operation performed (exec_keeps_unreadNeutral), if one is; an ignored
command delivers a result. -/
theorem stepKeepsTraceAndNeutralWidths : Obligations.StepKeepsTraceAndNeutralWidths := by
  intro s t hwf hs h
  refine ⟨step_traceWf h hwf, ?_⟩
  obtain ⟨-, rfl⟩ | ⟨e, es, i, -, -, hi⟩ | ⟨w, es, -, rfl⟩ := step_cases h
  · exact hs
  · exact exec_keeps_unreadNeutral hi (unreadNeutral_withPending hs es)
  · intro hr
    cases hr

/-! ### The protocol monitor -/

section Watch

variable {n : Channel} {i : Instr} {is : List Instr} {s t : State} {l l' : Ledger}

theorem watch_cons (h : exec i s = .next t) (hl : l.next n i s t = some l') :
    watch n (i :: is) s l = watch n is t l' := by
  simp [watch, h, hl]

/-- A watched run that keeps the protocol begins with an operation that does. -/
theorem watch_cons_eq_some {r : State × Ledger} (h : watch n (i :: is) s l = some r) :
    ∃ t l', exec i s = .next t ∧ l.next n i s t = some l' ∧ watch n is t l' = some r := by
  obtain ⟨t, ht⟩ := exec_goes_on i s
  rw [watch, ht] at h
  cases hl : l.next n i s t with
  | none => simp [hl] at h
  | some l' => exact ⟨t, l', ht, hl, by simpa [hl] using h⟩

theorem watch_append (js : List Instr) (h : watch n is s l = some (t, l')) :
    watch n (is ++ js) s l = watch n js t l' := by
  induction is generalizing s l with
  | nil => cases h; rfl
  | cons i is ih =>
    obtain ⟨a, m, ha, hm, h⟩ := watch_cons_eq_some h
    rw [List.cons_append, watch_cons ha hm, ih h]

end Watch

/-- Settles O47: RDF n returns 1 and opens a round, RDW n returns W[n], and CLR n closes the round with that width. -/
theorem waitingSampleCanAlwaysBeTaken : Obligations.WaitingSampleCanAlwaysBeTaken := by
  intro n s l hf hl
  have hround : watch n [.rdf n, .rdw n, .clr n] s l = some (((s.deliver 1).deliver (s.W n)).releaseBuffer n |>.deliver 0,
      { phase := .waiting, published := l.published, delivered := l.delivered ++ [s.W n] }) := by
    simp [watch, Ledger.next, Ledger.onReadFlag, Ledger.onReadWidth, Ledger.onClear, hf, hl]
  exact ⟨_, hround, by simp⟩

/-! ### Exactly-once delivery -/

namespace Ledger

section OnFall

variable {n : Channel} {s : State} (l : Ledger)

theorem onFall_accepted (hf : s.F n = false) :
    l.onFall n s (s.publish n) = { l with published := l.published ++ [s.now - s.S n] } := by
  simp [onFall, hf]

theorem onFall_self : l.onFall n s s = l := by
  cases hf : s.F n <;> simp [onFall, hf]

end OnFall

section Inversion

variable {n : Channel} {s t : State} {l l' : Ledger}

/-- Inside a round RDW n reads the width that waits. -/
theorem onReadWidth_eq_some (ht : exec (.rdw n) s = .next t) (hl : l.onReadWidth t = some l') :
    l.phase ≠ .waiting ∧ l' = { l with phase := .hasWidth (s.W n) } := by
  cases ht
  cases hp : l.phase <;> simp_all [onReadWidth]

/-- CLR n is allowed to a consumer that holds a width. -/
theorem onClear_eq_some (hl : l.onClear = some l') :
    ∃ v, l.phase = .hasWidth v ∧ l' = { l with phase := .waiting, delivered := l.delivered ++ [v] } := by
  cases hp : l.phase <;> simp_all [onClear]

end Inversion

namespace Sound

variable {n : Channel} {s t : State} {l l' : Ledger}

/-- A ledger says of a state only what W[n] and F[n] hold. -/
theorem congr (h : l.Sound n s) (hw : t.W n = s.W n) (hf : t.F n = s.F n) : l.Sound n t :=
  ⟨by rw [hw, hf]; exact h.account, by rw [hf]; exact h.inRound, by rw [hw]; exact h.holds⟩

theorem of_sameChan (h : l.Sound n s) (hsame : t.sameChan s n) : l.Sound n t := by
  obtain ⟨hw, -, hf⟩ := hsame
  exact h.congr hw hf

/-- While nothing waits in W[n], no round is open. -/
theorem phase_of_clear (h : l.Sound n s) (hf : s.F n = false) : l.phase = .waiting := by
  by_contra hp
  cases hf.symm.trans (h.inRound hp)

theorem fall (h : l.Sound n s) (ht : exec (.fall n) s = .next t) : (l.onFall n s t).Sound n t := by
  by_cases hguard : s.S n = 0 ∨ s.F n = true
  · rw [exec_fall_ignored hguard] at ht
    cases ht
    rwa [onFall_self]
  · obtain ⟨hs, hset⟩ := not_or.1 hguard
    have hf : s.F n = false := Bool.eq_false_of_not_eq_true hset
    have hp := h.phase_of_clear hf
    have haccount := h.account
    rw [exec_fall_accepted hs hf] at ht
    cases ht
    rw [onFall_accepted l hf]
    exact ⟨by simpa [hf] using haccount, fun hne => absurd hp hne, fun v hv => by cases hp.symm.trans hv⟩

theorem readFlag (h : l.Sound n s) (ht : exec (.rdf n) s = .next t) : (l.onReadFlag t).Sound n t := by
  have hsame : l.Sound n t := by cases ht; exact h.congr rfl rfl
  cases hp : l.phase with
  | waiting =>
    rw [onReadFlag, hp]
    dsimp only
    split
    · next h1 =>
      cases ht
      have hf : s.F n = true := (zextFlag_eq_one _).1 (Option.some_inj.1 h1)
      exact ⟨hsame.account, fun _ => hf, fun v hv => by cases hv⟩
    · exact hsame
  | sawReady | hasWidth v => rwa [onReadFlag, hp]

theorem readWidth (h : l.Sound n s) (ht : exec (.rdw n) s = .next t) (hl : l.onReadWidth t = some l') : l'.Sound n t := by
  obtain ⟨hp, rfl⟩ := onReadWidth_eq_some ht hl
  cases ht
  exact ⟨h.account, fun _ => h.inRound hp, fun v hv => by cases hv; rfl⟩

theorem clear (h : l.Sound n s) (ht : exec (.clr n) s = .next t) (hl : l.onClear = some l') : l'.Sound n t := by
  obtain ⟨v, hp, rfl⟩ := onClear_eq_some hl
  have hf : s.F n = true := h.inRound (by simp [hp])
  have haccount := h.account
  cases ht
  exact ⟨by simpa [hf, h.holds v hp] using haccount, fun hne => absurd rfl hne, fun v hv => by cases hv⟩

/-- Every operation that the monitor allows keeps the ledger sound (R86). -/
theorem next {i : Instr} (h : l.Sound n s) (ht : exec i s = .next t) (hl : l.next n i s t = some l') : l'.Sound n t := by
  by_cases hi : i.channel = some n
  · cases i with
    | rise m => cases hi; cases hl; cases ht; exact h.congr (by simp) (by simp)
    | fall m => cases hi; rw [Ledger.next, if_pos rfl] at hl; cases hl; exact h.fall ht
    | rdf m => cases hi; rw [Ledger.next, if_pos rfl] at hl; cases hl; exact h.readFlag ht
    | rdw m => cases hi; rw [Ledger.next, if_pos rfl] at hl; exact h.readWidth ht hl
    | clr m => cases hi; rw [Ledger.next, if_pos rfl] at hl; exact h.clear ht hl
    | tick | rst => cases hi
  · have hrst : i ≠ .rst := by rintro rfl; cases hl
    have hsame : l' = l := by cases i <;> simp_all [Ledger.next, Instr.channel]
    rw [hsame]
    exact h.of_sameChan ((exec_sameChan_or ht n).resolve_right (not_or.2 ⟨hi, hrst⟩))

end Sound

theorem sound_launch (n : Channel) (v : Word) : Ledger.empty.Sound n (State.launch v) :=
  ⟨by simp [empty], fun hne => absurd rfl hne, fun v hv => by cases hv⟩

end Ledger

theorem watch_sound {n : Channel} {is : List Instr} {s t : State} {l l' : Ledger} (h : l.Sound n s)
    (hw : watch n is s l = some (t, l')) : l'.Sound n t := by
  induction is generalizing s l with
  | nil => cases hw; exact h
  | cons i is ih =>
    obtain ⟨a, m, ha, hm, hw⟩ := watch_cons_eq_some hw
    exact ih (h.next ha hm) hw

/-- Settles O46: the step is Ledger.Sound.next, the base case sound_launch, and the run their induction, watch_sound. -/
theorem everySampleDeliveredExactlyOnce : Obligations.EverySampleDeliveredExactlyOnce :=
  ⟨fun _n _i _s _t _l _l' h ht hl => h.next ht hl, Ledger.sound_launch,
    fun n v _is _t _l hw => (watch_sound (Ledger.sound_launch n v) hw).account⟩

/-! ### The reference consumer keeps the protocol -/

section Phase

variable (n m : Channel)

@[simp] theorem phase_readFlag : (LoopPos.readFlag m).phase n = .waiting := rfl

@[simp] theorem phase_readWidth : (LoopPos.readWidth m).phase n = if m = n then .sawReady else .waiting := rfl

@[simp] theorem phase_clear (p : Word) : (LoopPos.clear m p).phase n = if m = n then .hasWidth p else .waiting := rfl

@[simp] theorem phase_pause : LoopPos.pause.phase n = .waiting := rfl

end Phase

/-- No sample has been acted on ahead of its CLR n where no round is open. -/
theorem actedOn_of_waiting {y : System} {n : Channel} (h : y.pos.phase n = .waiting) : y.actedOn n = false := by
  cases hp : y.pos with
  | readFlag m | readWidth m | pause => simp [System.actedOn, hp]
  | clear m p =>
    have hm : m ≠ n := by rintro rfl; simp [hp] at h
    simp [System.actedOn, hp, hm]

/-- A dispatch is one more line, if this is the moment for it. -/
theorem logged_dispatchWhen (v : Env) (now : Bool) (n m : Channel) (p : Word) :
    (v.dispatchWhen now m p).logged n = v.logged n ++ (if now = true ∧ m = n then [p] else []) := by
  cases now
  · simp [Env.dispatchWhen]
  · simp [Env.dispatchWhen, logged_process]

namespace Ledger.Tracks

variable {n : Channel} {y z : System} {l : Ledger} {s : State}

/-- An operation that writes neither W[n] nor F[n], beside a consumer that stays where it is. -/
theorem intrude (h : l.Tracks n y) (hw : s.W n = y.pwt.W n) (hf : s.F n = y.pwt.F n) : l.Tracks n { y with pwt := s } := by
  have hacted : ({ y with pwt := s } : System).actedOn n = y.actedOn n := rfl
  refine ⟨h.sound.congr hw hf, h.place, ?_⟩
  rw [hacted, hw, hf]
  exact h.lines

/-- A move of the consumer between two positions that are in no round on channel n. -/
theorem elsewhere (h : l.Tracks n y) (hsame : z.pwt.sameChan y.pwt n) (hlog : z.env.logged n = y.env.logged n)
    (hbefore : y.pos.phase n = .waiting) (hafter : z.pos.phase n = .waiting) : l.Tracks n z := by
  refine ⟨h.sound.of_sameChan hsame, h.place.trans (hbefore.trans hafter.symm), ?_⟩
  obtain ⟨hw, -, hf⟩ := hsame
  rw [hw, hf, hlog, actedOn_of_waiting hafter, ← actedOn_of_waiting hbefore]
  exact h.lines

theorem fall (h : l.Tracks n y) (hs : exec (.fall n) y.pwt = .next s) :
    (l.onFall n y.pwt s).Tracks n { y with pwt := s } := by
  have hsound := h.sound.fall hs
  by_cases hguard : y.pwt.S n = 0 ∨ y.pwt.F n = true
  · rw [exec_fall_ignored hguard] at hs
    cases hs
    rwa [onFall_self]
  · obtain ⟨hs0, hset⟩ := not_or.1 hguard
    have hf : y.pwt.F n = false := Bool.eq_false_of_not_eq_true hset
    have hacted : y.actedOn n = false := actedOn_of_waiting (h.place.symm.trans (h.sound.phase_of_clear hf))
    have hlines := h.lines
    rw [exec_fall_accepted hs0 hf] at hs
    cases hs
    have hacted' : ({ y with pwt := y.pwt.publish n } : System).actedOn n = false := hacted
    rw [onFall_accepted l hf] at hsound ⊢
    exact ⟨hsound, h.place, by simpa [hf, hacted'] using hlines⟩

/-- The loop sees the flag of channel n. -/
theorem sawReady (h : l.Tracks n y) (hp : y.pos = .readFlag n) (hf : y.pwt.F n = true) :
    ({ l with phase := .sawReady } : Ledger).Tracks n { y with pwt := y.pwt.deliver 1, pos := .readWidth n } := by
  have hlines := h.lines
  refine ⟨⟨h.sound.account, fun _ => hf, fun v hv => by cases hv⟩, by simp, ?_⟩
  simpa [System.actedOn, hp] using hlines

/-- The loop reads the width that waits, and acts on it now if this is the moment for it. -/
theorem hasWidth (h : l.Tracks n y) (hp : y.pos = .readWidth n) :
    ({ l with phase := .hasWidth (y.pwt.W n) } : Ledger).Tracks n
      { pwt := y.pwt.deliver (y.pwt.W n)
        env := y.env.dispatchWhen Config.actBeforeClear n (y.pwt.W n)
        pos := .clear n (y.pwt.W n) } := by
  have hf : y.pwt.F n = true := h.sound.inRound (by simp [h.place, hp])
  have hlines := h.lines
  refine ⟨⟨h.sound.account, fun _ => hf, fun v hv => by cases hv; rfl⟩, by simp, ?_⟩
  cases hact : Config.actBeforeClear <;> simpa [System.actedOn, logged_dispatchWhen, hp, hf, hact] using hlines

/-- The loop releases the buffer, and acts on the width it read unless it has done so before. -/
theorem released {p : Word} (h : l.Tracks n y) (hp : y.pos = .clear n p) :
    ({ l with phase := .waiting, delivered := l.delivered ++ [p] } : Ledger).Tracks n
      { pwt := (y.pwt.releaseBuffer n).deliver 0
        env := y.env.dispatchWhen (!Config.actBeforeClear) n p
        pos := .afterRound n } := by
  have hphase : l.phase = .hasWidth p := by simp [h.place, hp]
  have hf : y.pwt.F n = true := h.sound.inRound (by simp [hphase])
  have hw : p = y.pwt.W n := h.sound.holds p hphase
  have haccount := h.sound.account
  have hlines := h.lines
  refine ⟨⟨by simpa [hf, hw] using haccount, fun hne => absurd rfl hne, fun v hv => by cases hv⟩, by simp, ?_⟩
  cases hact : Config.actBeforeClear <;> simpa [System.actedOn, logged_dispatchWhen, hp, hf, hw, hact] using hlines

/-- Each move of the loop is allowed by the monitor and tracked. -/
theorem consume (h : l.Tracks n y) (hz : y.consume = .next z) :
    ∃ l' : Ledger, l'.Tracks n z ∧ watch n y.pos.operation.toList y.pwt l = some (z.pwt, l') := by
  obtain ⟨m, hp, hf, hc⟩ | ⟨m, hp, hf, hc⟩ | ⟨m, hp, hc⟩ | ⟨m, p, hp, hc⟩ | ⟨hp, hc⟩ := consume_cases y <;>
    rw [hc] at hz <;> cases hz <;> have hphase := h.place <;> rw [hp] at hphase ⊢
  case inl => -- RDF m returns 1
    by_cases hm : m = n
    · subst hm
      exact ⟨_, h.sawReady hp hf, watch_cons (by simp [hf]) (by simp [Ledger.next, onReadFlag, hphase])⟩
    · exact ⟨l, h.elsewhere (sameChan_refl ..) rfl (by simp [hp]) (by simp [hm]),
        watch_cons (by simp [hf]) (by simp [Ledger.next, hm])⟩
  case inr.inl => -- RDF m returns 0
    exact ⟨l, h.elsewhere (sameChan_refl ..) rfl (by simp [hp]) (by simp),
      watch_cons (by simp [hf]) (by simp [Ledger.next, onReadFlag, hphase])⟩
  case inr.inr.inl => -- RDW m
    by_cases hm : m = n
    · subst hm
      exact ⟨_, h.hasWidth hp, watch_cons (by simp) (by simp [Ledger.next, onReadWidth, hphase])⟩
    · exact ⟨l, h.elsewhere (sameChan_refl ..) (by simp [logged_dispatchWhen, hm]) (by simp [hp, hm]) (by simp [hm]),
        watch_cons (by simp) (by simp [Ledger.next, hm])⟩
  case inr.inr.inr.inl => -- CLR m
    by_cases hm : m = n
    · subst hm
      exact ⟨_, h.released hp, watch_cons (by simp) (by simp [Ledger.next, onClear, hphase])⟩
    · have hsame : ((y.pwt.releaseBuffer m).deliver 0).sameChan y.pwt n :=
        exec_sameChan_other (i := .clr m) rfl (Ne.symm hm) (exec_clr m y.pwt)
      exact ⟨l, h.elsewhere hsame (by simp [logged_dispatchWhen, hm]) (by simp [hp, hm]) (by simp),
        watch_cons (by simp) (by simp [Ledger.next, hm])⟩
  case inr.inr.inr.inr => -- the wait ends
    exact ⟨l, h.elsewhere (sameChan_refl ..) rfl (by simp [hp]) (by simp), rfl⟩

/-- An edge or a microsecond, wherever it falls, is allowed by the monitor and tracked. -/
theorem intrusion {i : Instr} {s : State} (h : l.Tracks n y) (hi : i = .tick ∨ ∃ m, i = .rise m ∨ i = .fall m)
    (hs : exec i y.pwt = .next s) :
    ∃ l' : Ledger, l'.Tracks n { y with pwt := s } ∧ watch n [i] y.pwt l = some (s, l') := by
  by_cases hfall : i = .fall n
  · subst hfall
    exact ⟨_, h.fall hs, watch_cons hs (by rw [Ledger.next, if_pos rfl])⟩
  · have hnext : l.next n i y.pwt s = some l := by
      obtain rfl | ⟨m, rfl | rfl⟩ := hi
      · rfl
      · rfl
      · have hm : m ≠ n := by rintro rfl; exact hfall rfl
        simp [Ledger.next, hm]
    have hclr : i ≠ .clr n := by rintro rfl; simp at hi
    have hrst : i ≠ .rst := by rintro rfl; simp at hi
    obtain ⟨hw, -, hf, -⟩ := onlyListedOperationsWrite i y.pwt s n hs
    exact ⟨l, h.intrude (hw hfall hrst) (hf hfall hclr hrst), watch_cons hs hnext⟩

/-- So is every turn but a reset. -/
theorem turn {u : Turn} (h : l.Tracks n y) (hu : u ≠ .reset) (hz : y.turn u = .next z) :
    ∃ l' : Ledger, l'.Tracks n z ∧ watch n (u.operation y.pos).toList y.pwt l = some (z.pwt, l') := by
  by_cases hcons : u = .consumer
  · subst hcons
    exact h.consume hz
  · obtain ⟨i, s, hi, hs, hturn⟩ := turn_other_goes_on y hcons
    cases hturn.symm.trans hz
    rw [hi]
    refine h.intrusion ?_ hs
    cases u with
    | consumer => exact absurd rfl hcons
    | edge m level => cases level <;> cases hi <;> simp
    | microsecond => cases hi; exact .inl rfl
    | reset => exact absurd rfl hu

theorem launch (n : Channel) (v : Word) : Ledger.empty.Tracks n (System.launch v) :=
  ⟨sound_launch n v, rfl, by simp [empty, System.launch, Env.reset, Env.logged]⟩

/-- Turns with no reset among them keep the protocol and are tracked to their end. -/
theorem turns {us : List Turn} (h : l.Tracks n y) (hus : .reset ∉ us) (hz : System.turns us y = .next z) :
    ∃ l' : Ledger, watch n (System.trace us y) y.pwt l = some (z.pwt, l') ∧ l'.Tracks n z := by
  induction us generalizing y l with
  | nil => cases hz; exact ⟨l, rfl, h⟩
  | cons u us ih =>
    rw [turns_cons, andThen_eq_next] at hz
    obtain ⟨x, hx, hz⟩ := hz
    obtain ⟨hu, hus⟩ := not_or.1 (List.mem_cons.not.1 hus)
    obtain ⟨m, hm, hwatch⟩ := h.turn (Ne.symm hu) hx
    obtain ⟨l', hrest, hl'⟩ := ih hm hus hz
    exact ⟨l', by rw [trace_cons hx, watch_append _ hwatch, hrest], hl'⟩

end Ledger.Tracks

/-- Settles O59: the step is Ledger.Tracks.turn, the base case Ledger.Tracks.launch, and the run their induction. -/
theorem loopActsOnEverySampleOnce : Obligations.LoopActsOnEverySampleOnce := by
  refine ⟨fun n u y z l h hu hz => ?_, Ledger.Tracks.launch, fun n v us z hus hz =>
    (Ledger.Tracks.launch n v).turns hus hz⟩
  obtain ⟨l', hl', hwatch⟩ := h.turn hu hz
  refine ⟨l', hl', ?_⟩
  cases hi : u.operation y.pos with
  | none =>
    rw [hi] at hwatch
    exact (Prod.mk.inj (Option.some_inj.1 hwatch)).2.symm
  | some i =>
    rw [hi] at hwatch
    obtain ⟨t, m, -, hm, hnil⟩ := watch_cons_eq_some hwatch
    cases hnil
    exact hm

/-! ### The dimmer -/

/-- Every rounding mode is monotone at the whole quotients from 0 on: rounding does not cross one. -/
theorem roundQuotient_bounds (mode : RoundMode) {k : Int} (hk : 0 ≤ k) (x : Int) :
    (1000 * k ≤ x → k ≤ roundQuotient mode x 1000) ∧ (x ≤ 1000 * k → roundQuotient mode x 1000 ≤ k) := by
  by_cases hm : mode = .truncate
  · subst hm
    obtain ⟨hpos, hneg⟩ := roundQuotient_truncate x
    constructor <;> intro h
    · rw [hpos (by omega)]
      omega
    · by_cases hx : 0 ≤ x
      · rw [hpos hx]
        omega
      · exact (hneg (by omega)).trans hk
  · obtain ⟨hle, hge⟩ := roundQuotient_nearest hm x
    constructor <;> intro h <;> omega

theorem clampDuty_eq (x : Int) : clampDuty x = max 0 (min x 255) := rfl

theorem clampDuty_bounds (x : Int) : 0 ≤ clampDuty x ∧ clampDuty x ≤ 255 :=
  ⟨le_max_left .., max_le (by decide) (min_le_right ..)⟩

theorem clampDuty_of_nonpos {x : Int} (h : x ≤ 0) : clampDuty x = 0 := max_eq_left ((min_le_left ..).trans h)

theorem clampDuty_of_ge {x : Int} (h : 255 ≤ x) : clampDuty x = 255 := by
  rw [clampDuty_eq, min_eq_right h]
  rfl

theorem clampDuty_of_mem {x : Int} (h0 : 0 ≤ x) (h1 : x ≤ 255) : clampDuty x = x := by
  rw [clampDuty_eq, min_eq_left h1, max_eq_right h0]

theorem dimmer_eq (mode : RoundMode) (p : Word) :
    dimmer mode p = clampDuty (roundQuotient mode (((p.toNat : Int) - 1000) * 255) 1000) := rfl

theorem dimmer_bounds (mode : RoundMode) (p : Word) : 0 ≤ dimmer mode p ∧ dimmer mode p ≤ 255 := clampDuty_bounds _

theorem dimmerDuty_val (mode : RoundMode) (p : Word) : ((dimmerDuty mode p).val : Int) = dimmer mode p := by
  obtain ⟨h0, h1⟩ := dimmer_bounds mode p
  have hlt : (dimmer mode p).toNat < Config.dutyMax + 1 := by
    show _ < 256
    omega
  show (((dimmer mode p).toNat % (Config.dutyMax + 1) : Nat) : Int) = _
  rw [Nat.mod_eq_of_lt hlt, Int.toNat_of_nonneg h0]

/-- Settles O53: outside 1000..2000 the rounded quotient lies on the clamped side of 0 or 255, and between them inside, where the
clamp keeps it (roundQuotient_bounds). -/
theorem dimmerScalesAndClamps : Obligations.DimmerScalesAndClamps := by
  intro mode p
  obtain ⟨h0, h1⟩ := dimmer_bounds mode p
  have hbounds {k : Int} (hk : 0 ≤ k) := roundQuotient_bounds mode hk (((p.toNat : Int) - 1000) * 255)
  refine ⟨h0, h1, fun hp => ?_, fun hp => ?_, fun hlo hhi => ?_, dimmerDuty_val mode p⟩ <;> rw [dimmer_eq]
  · exact clampDuty_of_nonpos ((hbounds (le_refl 0)).2 (by omega))
  · exact clampDuty_of_ge ((hbounds (by decide)).1 (by omega))
  · rw [clampDuty_of_mem ((hbounds (le_refl 0)).1 (by omega)) ((hbounds (by decide)).2 (by omega))]
    refine ⟨?_, fun hm => roundQuotient_nearest hm _⟩
    rintro rfl
    rw [(roundQuotient_truncate _).1 (by omega)]
    omega

/-! ### One cycle of the control loop -/

/-- What POLL leaves of PWT: each buffer in turn released. -/
def State.drained (s : State) : State :=
  (((((s.releaseBuffer .one).deliver 0).releaseBuffer .two).deliver 0).releaseBuffer .three).deliver 0

/-- What one cycle makes of the environment: in turn, each channel's waiting width dispatched. -/
def Env.afterPoll (v : Env) (s : State) : Env :=
  ((v.dispatchWhen (s.F .one) .one (s.W .one)).dispatchWhen (s.F .two) .two (s.W .two)).dispatchWhen
    (s.F .three) .three (s.W .three)

theorem F_drained (s : State) (n : Channel) : s.drained.F n = false := by
  induction n using Channel.threeCases <;> simp [drained, Channel.ext_iff]

/-- To process the waiting widths of listed channels is to dispatch the first, if it waits, and to process the others. -/
theorem processAll_filter_cons (v : Env) (s : State) (n : Channel) (ns : List Channel) :
    v.processAll (((n :: ns).filter s.F).map fun m => (m, s.W m)) =
      (v.dispatchWhen (s.F n) n (s.W n)).processAll ((ns.filter s.F).map fun m => (m, s.W m)) := by
  cases hf : s.F n <;> simp [hf, Env.processAll, Env.dispatchWhen]

theorem processAll_waiting (v : Env) (s : State) :
    v.processAll ((Channel.all.filter s.F).map fun n => (n, s.W n)) = v.afterPoll s := by
  rw [Channel.all_default, processAll_filter_cons, processAll_filter_cons, processAll_filter_cons]
  rfl

theorem poll_eq (s : State) :
    poll s = .next { state := s.drained, delivered := (Channel.all.filter s.F).map fun n => (n, s.W n) } := by
  have hpoll : ∃ ps, poll s = .next { state := s.drained, delivered := ps } := by
    rw [poll, Channel.all_default, takeEach_cons, takeEach_cons, takeEach_cons]
    exact ⟨_, rfl⟩
  obtain ⟨ps, hps⟩ := hpoll
  rw [hps, ← takeEach_delivered (by decide) hps]

theorem cycle_eq (y : System) : y.cycle = .next { y with pwt := y.pwt.drained, env := y.env.afterPoll y.pwt } := by
  rw [System.cycle, poll_eq, andThen_next, processAll_waiting]

theorem log_processAll (v : Env) (ps : List (Channel × Word)) :
    (v.processAll ps).log = v.log ++ ps.map fun np => LogLine.sample np.1 np.2 := by
  induction ps generalizing v with
  | nil => simp [Env.processAll]
  | cons np ps ih =>
    show ((v.process np.1 np.2).processAll ps).log = _
    rw [ih]
    simp [Env.process]

/-! ### Which channel drives which output -/

/-- The colour output, channel 3's three outputs (R101). -/
def Env.rgb (v : Env) : Duty × Duty × Duty := (v.red, v.green, v.blue)

section Outputs

variable (v : Env) (now : Bool) {n : Channel} (p : Word)

theorem led1_dispatch_one : (v.dispatchWhen now .one p).led1 = if now then switchDuty Config.ledOn p else v.led1 := by
  cases now <;> rfl

theorem led2_dispatch_two :
    (v.dispatchWhen now .two p).led2 = if now then dimmerDuty Config.roundMode p else v.led2 := by
  cases now <;> rfl

theorem trigger_eq : v.trigger p = if 1700 < p.toNat then v.advanceColour else v := by
  simp only [Env.trigger, triggers_iff]

/-- The trigger drives neither LED. -/
theorem leds_trigger : (v.trigger p).led1 = v.led1 ∧ (v.trigger p).led2 = v.led2 := by
  rw [trigger_eq]
  split <;> exact ⟨rfl, rfl⟩

theorem idx_dispatch_three :
    (v.dispatchWhen now .three p).idx = if now = true ∧ 1700 < p.toNat then v.idx + 1 else v.idx := by
  cases now
  · rfl
  · show (v.trigger p).idx = _
    rw [trigger_eq, apply_ite Env.idx]
    simp [Env.advanceColour]

theorem rgb_dispatch_three :
    (v.dispatchWhen now .three p).rgb = if now = true ∧ 1700 < p.toNat then colour (v.idx + 1) else v.rgb := by
  cases now
  · rfl
  · show (v.trigger p).rgb = _
    rw [trigger_eq, apply_ite Env.rgb]
    simp [Env.advanceColour, Env.rgb]

theorem led1_dispatch_other (h : n ≠ .one) : (v.dispatchWhen now n p).led1 = v.led1 := by
  cases now
  · rfl
  · induction n using Channel.threeCases with
    | one => exact absurd rfl h
    | two => rfl
    | three => exact (leds_trigger v p).1

theorem led2_dispatch_other (h : n ≠ .two) : (v.dispatchWhen now n p).led2 = v.led2 := by
  cases now
  · rfl
  · induction n using Channel.threeCases with
    | one => rfl
    | two => exact absurd rfl h
    | three => exact (leds_trigger v p).2

theorem colour_dispatch_other (h : n ≠ .three) :
    (v.dispatchWhen now n p).idx = v.idx ∧ (v.dispatchWhen now n p).rgb = v.rgb := by
  cases now
  · exact ⟨rfl, rfl⟩
  · induction n using Channel.threeCases with
    | one | two => exact ⟨rfl, rfl⟩
    | three => exact absurd rfl h

end Outputs

section AfterPoll

variable (v : Env) (s : State)

theorem led1_afterPoll : (v.afterPoll s).led1 = if s.F .one then switchDuty Config.ledOn (s.W .one) else v.led1 := by
  rw [Env.afterPoll, led1_dispatch_other _ _ _ (by decide), led1_dispatch_other _ _ _ (by decide), led1_dispatch_one]

theorem led2_afterPoll :
    (v.afterPoll s).led2 = if s.F .two then dimmerDuty Config.roundMode (s.W .two) else v.led2 := by
  rw [Env.afterPoll, led2_dispatch_other _ _ _ (by decide), led2_dispatch_two, led2_dispatch_other _ _ _ (by decide)]

/-- Until channel 3's dispatch the cursor and the colour stay. -/
theorem colour_before_three :
    ((v.dispatchWhen (s.F .one) .one (s.W .one)).dispatchWhen (s.F .two) .two (s.W .two)).idx = v.idx ∧
    ((v.dispatchWhen (s.F .one) .one (s.W .one)).dispatchWhen (s.F .two) .two (s.W .two)).rgb = v.rgb := by
  obtain ⟨hidx, hrgb⟩ := colour_dispatch_other v (s.F .one) (s.W .one) (n := .one) (by decide)
  obtain ⟨hidx', hrgb'⟩ :=
    colour_dispatch_other (v.dispatchWhen (s.F .one) .one (s.W .one)) (s.F .two) (s.W .two) (n := .two) (by decide)
  exact ⟨hidx'.trans hidx, hrgb'.trans hrgb⟩

theorem idx_afterPoll :
    (v.afterPoll s).idx = if s.F .three = true ∧ 1700 < (s.W .three).toNat then v.idx + 1 else v.idx := by
  obtain ⟨hidx, -⟩ := colour_before_three v s
  rw [Env.afterPoll, idx_dispatch_three, hidx]

theorem rgb_afterPoll :
    (v.afterPoll s).rgb = if s.F .three = true ∧ 1700 < (s.W .three).toNat then colour (v.idx + 1) else v.rgb := by
  obtain ⟨hidx, hrgb⟩ := colour_before_three v s
  rw [Env.afterPoll, rgb_dispatch_three, hidx, hrgb]

end AfterPoll

/-! ### The cycle by the loop's own moves -/

/-- A whole round with nothing in between releases the buffer, and dispatches the width if one waits. -/
theorem turns_take {y : System} {n : Channel} {f : Bool} {w : Word} (h : y.pos = .readFlag n) (hf : y.pwt.F n = f)
    (hw : y.pwt.W n = w) :
    System.turns (List.replicate (takeOps n f).length .consumer) y =
      .next { pwt := (y.pwt.releaseBuffer n).deliver 0, env := y.env.dispatchWhen f n w, pos := .afterRound n } := by
  obtain ⟨a, ha, hturns⟩ := turns_round h
  cases (take_of_clr (exec_clr n y.pwt)).symm.trans ha
  rw [← hf, ← hw, hturns]
  cases y.pwt.F n <;> rfl

/-- From the wait, its end and three rounds are the cycle: no round touches the flag or the width of the next. -/
theorem turns_cycle {y : System} (h : y.pos = .pause) :
    System.turns (List.replicate (1 + (Channel.all.map fun n => (takeOps n (y.pwt.F n)).length).sum) .consumer) y =
      .next { y with pwt := y.pwt.drained, env := y.env.afterPoll y.pwt } := by
  have hends : System.turns (List.replicate 1 .consumer) y = .next { y with pos := .readFlag .one } := by
    rw [List.replicate_one, turns_cons, turn_consumer, consume_pause h]
    rfl
  have hone := turns_take (y := { y with pos := .readFlag .one }) (n := .one) rfl rfl rfl
  have htwo := turns_take (n := .two) (f := y.pwt.F .two) (w := y.pwt.W .two)
    (y := { pwt := (y.pwt.releaseBuffer .one).deliver 0
            env := y.env.dispatchWhen (y.pwt.F .one) .one (y.pwt.W .one)
            pos := .readFlag .two }) rfl (by simp [Channel.ext_iff]) (by simp)
  have hthree := turns_take (n := .three) (f := y.pwt.F .three) (w := y.pwt.W .three)
    (y := { pwt := (((y.pwt.releaseBuffer .one).deliver 0).releaseBuffer .two).deliver 0
            env := (y.env.dispatchWhen (y.pwt.F .one) .one (y.pwt.W .one)).dispatchWhen (y.pwt.F .two) .two (y.pwt.W .two)
            pos := .readFlag .three }) rfl (by simp [Channel.ext_iff]) (by simp)
  rw [afterRound_one] at hone
  rw [afterRound_two] at htwo
  rw [afterRound_three, ← h] at hthree
  simp only [Channel.all_default, List.map_cons, List.map_nil, List.sum_cons, List.sum_nil, Nat.add_zero,
    List.replicate_add, turns_append, hends, hone, htwo, andThen_next]
  exact hthree

/-- Settles O56: the cycle is cycle_eq, which the loop's own moves reach (turns_cycle); its log has one line for each processed
width, and each output is that of its own channel's dispatch. -/
theorem cycleProcessesWaitingSamples : Obligations.CycleProcessesWaitingSamples := by
  intro y
  have henv := processAll_waiting y.env y.pwt
  refine ⟨_, cycle_eq y, F_drained y.pwt, henv.symm, ?_, led1_afterPoll .., led2_afterPoll .., idx_afterPoll ..,
    rgb_afterPoll .., turns_cycle⟩
  rw [← henv, log_processAll, List.map_map]
  rfl

/-! ### Other widths and numbers of channels -/

section Width

variable {TSW NCH : Nat}

/-- A pulse from a free buffer, with NOW not the sentinel, publishes its length. -/
theorem runAtWidth_pulse {n : Channel NCH} {s : State TSW NCH} (d : Nat) (hf : s.F n = false) (hnow : s.now ≠ 0) :
    runAtWidth (.rise n :: (advOps d NCH ++ [.fall n])) s =
      .next (((s.setS n s.now).setNow (s.now + BitVec.ofNat TSW d)).publish n) := by
  have hguard : ((s.setS n s.now).setNow (s.now + BitVec.ofNat TSW d)).accepts n = true :=
    (accepts_iff _ n).2 ⟨by simpa using hnow, by simpa using hf⟩
  rw [runAtWidth_cons, execAtWidth_rise, andThen_next, runAtWidth_append, runAtWidth_advOps, andThen_next, setS_now,
    runAtWidth_cons, execAtWidth_fall, if_pos hguard]
  rfl

end Width

/-- Settles O57: each clause by the operation's meaning at any width; the defaults by runAtWidth_default. -/
theorem everyWidthCountsModulo : Obligations.EveryWidthCountsModulo := by
  refine fun TSW NCH => ⟨fun s => ⟨_, execAtWidth_tick s, ?_⟩, fun n s d hf hnow => ⟨_, runAtWidth_pulse d hf hnow, ?_⟩,
    fun n s hT => ⟨_, _, rfl, deliver_cRdata .., ?_, sameRegs_deliver ..⟩, fun s => ⟨_, rfl, rfl, fun n => ?_⟩,
    fun hN i => decode_encode hN i, fun is s => runAtWidth_default is s⟩
  · rw [setNow_now, BitVec.toNat_add]
    exact Nat.add_mod_mod ..
  · have hw : s.now + BitVec.ofNat TSW d - s.now = BitVec.ofNat TSW d := by rw [BitVec.add_comm, BitVec.add_sub_cancel]
    refine ⟨?_, S_publish_same .., F_publish_same .., fun m hm => by simp [sameChan, hm]⟩
    rw [W_publish_same, S_setNow, S_setS_same, setNow_now, hw, BitVec.toNat_ofNat]
  · rw [zextFlag_toNat hT]
    cases s.F n <;> rfl
  · have hw : (s.resetChannels.W n).toNat = 1500 % 2 ^ TSW := by
      rw [W_resetChannels]
      exact BitVec.toNat_ofNat ..
    refine ⟨hw, fun hT => ?_, S_resetChannels .., F_resetChannels ..⟩
    have hlt : 1500 < 2 ^ TSW := lt_of_lt_of_le (by decide) (Nat.pow_le_pow_right (by decide) hT)
    rw [hw, Nat.mod_eq_of_lt hlt]

/-! ### The text of a trace -/

/-- Up to its first separator a text is one piece. -/
theorem splitAtEach_append_sep {sep : Char} {cs : List Char} (h : sep ∉ cs) (ds : List Char) :
    splitAtEach sep (cs ++ sep :: ds) = (cs, (splitAtEach sep ds).1 :: (splitAtEach sep ds).2) := by
  induction cs with
  | nil => simp [splitAtEach]
  | cons c cs ih =>
    obtain ⟨hc, hcs⟩ := not_or.1 (List.mem_cons.not.1 h)
    simp [splitAtEach, ih hcs, Ne.symm hc]

theorem newline_not_mem_spell (i : Instr) : '\n' ∉ spell i := by
  cases i with
  | rise n | fall n | rdf n | rdw n | clr n => induction n using Channel.threeCases <;> decide
  | tick | rst => decide

/-- Every operation's line parses to it (R71). -/
theorem parseLine_spell (i : Instr) : parseLine (spell i) = some (some (.op i none)) := by
  cases i with
  | rise n => exact Laws.SpelledBack.rise n
  | fall n => exact Laws.SpelledBack.fall n
  | rdf n => exact Laws.SpelledBack.rdf n
  | rdw n => exact Laws.SpelledBack.rdw n
  | clr n => exact Laws.SpelledBack.clr n
  | tick => exact Laws.SpelledBack.tick
  | rst => exact Laws.SpelledBack.rst

theorem parseTrace_eq (cs : List Char) :
    parseTrace cs = parseLines ((splitAtEach '\n' cs).1 :: (splitAtEach '\n' cs).2) := rfl

/-- A text is read line by line. -/
theorem parseTrace_spell_append (i : Instr) (cs : List Char) :
    parseTrace (spell i ++ '\n' :: cs) = (parseTrace cs).map (Line.op i none :: ·) := by
  rw [parseTrace_eq, splitAtEach_append_sep (newline_not_mem_spell i), parseLines, parseLine_spell, ← parseTrace_eq]
  cases parseTrace cs <;> rfl

/-- Two blanks before the channel number leave an empty token. -/
theorem parseLine_doubled_blank {i : Instr} {n : Channel} (h : i.channel = some n) :
    parseLine ((mnemonicOf i).toList ++ [' ', ' ', digitOf n]) = none := by
  cases i with
  | rise m | fall m | rdf m | rdw m | clr m => cases h; induction n using Channel.threeCases <;> decide
  | tick | rst => cases h

/-- An annotated read agrees when the delivered word is the number written. -/
theorem agrees_iff_of_delivers {i : Instr} {s : State} {w : Word} (h : exec i s = .next (s.deliver w)) (v : Nat) :
    (Line.op i (some v)).agrees s = true ↔ v = w.toNat := by
  rw [Line.agrees, h]
  show (some w.toNat == some v) = true ↔ v = w.toNat
  rw [beq_iff_eq, Option.some_inj]
  exact eq_comm

/-- Settles O60: the text line by line, and the annotations by the values that RDF n and RDW n deliver. -/
theorem spelledTraceParsesBack : Obligations.SpelledTraceParsesBack := by
  refine ⟨fun is => ?_, fun i n h => parseLine_doubled_blank h, fun n s v => ⟨?_, ?_⟩⟩
  · induction is with
    | nil => decide
    | cons i is ih => rw [spellTrace, parseTrace_spell_append, ih]; rfl
  · rw [agrees_iff_of_delivers (exec_rdf n s)]
    cases s.F n <;> simp
  · exact agrees_iff_of_delivers (exec_rdw n s) v

end Sys2Proof.Machine
